-- ==== Sys2Proof/Word.lean ====
section
/-! DEFINITION. The two word types of the CORE: the byte and the 16-bit address (00_scope.md R5, R10). -/

namespace Sys2Proof

/-- An 8-bit value: A, X, Y, SP, a memory cell, an opcode or operand byte (R5). -/
abbrev Byte := BitVec 8

/-- A 16-bit value: PC and every address (R5). -/
abbrev Word := BitVec 16

end Sys2Proof
end

