-- ==== Sys2Proof/Machine/Alu.lean ====
section
/-! DEFINITION. The alu_8bit (40_dispatch_and_addressing.md R112 to R116): PASS, ADD, CMP, INC, computed on
exact integers and cut to 8 bits at the end. -/

namespace Sys2Proof.Machine

/-- PASS (R113). -/
def aluPass (b : Byte) : Byte := b

/-- ADD: the untruncated sum, 0 to 511 (R114). -/
abbrev aluSum (a b : Byte) (cin : Bool) : Nat := a.toNat + b.toNat + cin.toNat

/-- ADD: the 8-bit result (R114). -/
def aluAdd (a b : Byte) (cin : Bool) : Byte := BitVec.ofNat 8 (aluSum a b cin)

/-- ADD: carry out of bit 7 (R114). -/
def aluCarry (a b : Byte) (cin : Bool) : Bool := decide (255 < aluSum a b cin)

/-- ADD: signed overflow, by the source's mask formula (R114). -/
def aluOverflow (a b : Byte) (cin : Bool) : Bool :=
  ((a.toNat ^^^ aluSum a b cin) &&& (b.toNat ^^^ aluSum a b cin) &&& 0x80) != 0

/-- CMP: the exact difference, -255 to 255 (R115). -/
abbrev aluDiff (a b : Byte) : Int := (a.toNat : Int) - (b.toNat : Int)

/-- CMP: the difference mod 256 (R115). -/
def aluCmp (a b : Byte) : Byte := BitVec.ofInt 8 (aluDiff a b)

/-- CMP: no borrow (R115). -/
def aluNoBorrow (a b : Byte) : Bool := decide (0 ≤ aluDiff a b)

/-- INC, wrapping at 256 (R116). -/
def aluInc (a : Byte) : Byte := BitVec.ofNat 8 (a.toNat + 1)

end Sys2Proof.Machine
end

