-- ==== Sys2Proof/Config.lean ====
section
/-! DEFINITION. The parameters of the hardware, fixed (00_scope.md R5) and left to the implementation
with the value the spec takes (R6). `MAX_STEPS` and `ORIGIN` are arguments of the host operations, not
constants; `CYCLE_WIDTH` is the type Nat of `State.cycles` (log entry 5). -/

namespace Sys2Proof

/-- Whether ADC writes V: the values of the parameter `ADC_V` (R6, 92_eei_decisions.md D3). -/
inductive AdcOverflow where
  /-- V is computed by the formula of R140. -/
  | computed
  /-- V is left as it was: the reference software's behaviour. -/
  | unchanged
  deriving DecidableEq, Repr

namespace Config

/-- Cells of memory: addresses 0 to 65535 (R5). -/
abbrev memorySize : Nat := 65536

/-- SP after Reset (R5, R39). -/
def resetSp : Byte := 0xFD#8

/-- The origin Reset takes where none is given (R6, R39). -/
def defaultOrigin : Word := 0x0000#16

/-- `BRK_CYCLES`, DESIGN CHOICE of the spec (R6, D4), log entry 3, unsafe. -/
def brkCycles : Nat := 0

/-- `ADC_V`, DESIGN CHOICE of the spec (R6, D3), log entry 4, unsafe. -/
def adcOverflow : AdcOverflow := .computed

end Config

end Sys2Proof
end

