-- ==== Sys2Proof/Machine/State.lean ====
section
/-! DEFINITION. The architectural state of the CORE (10_state.md R20), the reasons a step or a host
operation can stop, and the state after Reset (R39). -/

namespace Sys2Proof.Machine

/-- The flag_register: seven independent booleans, not a packed byte (R26). -/
structure Flags where
  /-- Negative (R27). -/
  n : Bool
  /-- Overflow (R28). -/
  v : Bool
  /-- Break (R29). -/
  b : Bool
  /-- Decimal: inert (R30). -/
  d : Bool
  /-- Interrupt-disable: inert (R31). -/
  i : Bool
  /-- Zero (R32). -/
  z : Bool
  /-- Carry (R33). -/
  c : Bool
  deriving DecidableEq, Repr

/-- The dispatcher's two states (R36, R100). -/
inductive RunState where
  | running
  | halted
  deriving DecidableEq, Repr

/-- The memory M (R37): the cells that are not 0x00, addresses strictly rising (log entry 9). -/
abbrev Memory := List Host.Cell

/-- The two error kinds of the hardware (60_exceptions.md R180). -/
inductive Fault where
  /-- Raised by `step` when the opcode byte at PC is not one of the nine (R181); safe: the spec names it. -/
  | unimplementedOpcode (opcode : Byte)
  /-- Raised by the accessors `busRead` and `busWrite` for a number above 65535 (R182); no step raises
  it (R54); safe: the spec names it. -/
  | outOfBounds (addr : Nat)
  deriving DecidableEq, Repr

/-- Why the model gives no meaning to a request. -/
inductive Refusal where
  /-- Raised by an arm of `exec` whose instruction has no meaning yet; safe. No arm raises it now. -/
  | notModelled (mnemonic : String)
  /-- Raised by `hostLoad` when the bytes would pass 0xFFFF (R203, D9); safe. -/
  | loadPastTop (origin length : Nat)
  /-- Raised by `hostSetPc` and `hostRun` when the CORE is halted: it needs a Reset (R202, R105, D7); safe. -/
  | needsReset
  deriving DecidableEq, Repr

/-- The whole state of the CORE (R20). -/
structure State where
  /-- Accumulator (R21). -/
  a : Byte
  /-- Index register, inert (R22). -/
  x : Byte
  /-- Index register, inert (R23). -/
  y : Byte
  /-- Stack pointer, inert (R25). -/
  sp : Byte
  /-- Program counter: the address of the next opcode byte (R24). -/
  pc : Word
  /-- The seven status flags (R26). -/
  flags : Flags
  /-- Cycle counter, unbounded (R35, log entry 5). -/
  cycles : Nat
  /-- Run state (R36). -/
  run : RunState
  /-- Memory (R37). -/
  mem : Memory
  deriving DecidableEq, Repr

/-- The flags after Reset: "all flags clear" (R39). -/
def Flags.clear : Flags :=
  { n := false, v := false, b := false, d := false, i := false, z := false, c := false }

/-- The state after `Reset(origin)` (R39, R200). -/
def State.resetAt (origin : Word) : State :=
  { a := 0, x := 0, y := 0, sp := Config.resetSp, pc := origin, flags := Flags.clear,
    cycles := 0, run := .running, mem := [] }

/-- The state after Reset with no origin given (R39). -/
def State.reset : State := State.resetAt Config.defaultOrigin

end Sys2Proof.Machine
end

