-- ==== Sys2Proof/Machine/Flags.lean ====
section
/-! DEFINITION. The status_flag_derivation and the write enables of the flag_register
(40_dispatch_and_addressing.md R117 to R121). -/

namespace Sys2Proof.Machine

/-- Zero: the 8-bit result is 0 (R117). -/
def zeroFlag (out : Byte) : Bool := out == 0

/-- Negative: bit 7 of the 8-bit result (R118). -/
def negFlag (out : Byte) : Bool := out.getLsbD 7

/-- Write Z and N from a result, as LDA and INC do; the other five stay (R121). -/
def Flags.setZN (f : Flags) (out : Byte) : Flags := { f with z := zeroFlag out, n := negFlag out }

/-- V after an ADC, by the parameter `ADC_V` (R120, R6; log entry 4). -/
def adcV (f : Flags) (a m : Byte) : Bool :=
  match Config.adcOverflow with
  | .computed => aluOverflow a m f.c
  | .unchanged => f.v

/-- Write C, Z, N and V as ADC does; B, D and I stay (R121). -/
def Flags.afterAdc (f : Flags) (a m : Byte) : Flags :=
  { f.setZN (aluAdd a m f.c) with c := aluCarry a m f.c, v := adcV f a m }

/-- Write C, Z and N as CMP does; V, B, D and I stay (R121). -/
def Flags.afterCmp (f : Flags) (a m : Byte) : Flags :=
  { f.setZN (aluCmp a m) with c := aluNoBorrow a m }

/-- Set B, as BRK does; the other six stay (R121). -/
def Flags.setBreak (f : Flags) : Flags := { f with b := true }

end Sys2Proof.Machine
end

