-- ==== Sys2Proof/Machine/Ops.lean ====
section
/-! DEFINITION. The memory_interface (20_memory.md R50 to R54) and the named operations on registers. This
hardware takes no exception and returns from none (60_exceptions.md R185, R187): there is no trap entry to
share. Its nearest thing is BRK's `State.halt`. -/

namespace Sys2Proof.Machine

/-- What a cell that is not listed holds: Reset zero-fills memory (R39). -/
def Memory.unlisted : Byte := 0

/-- The byte of one cell. -/
def Memory.readCell : Memory → Nat → Byte
  | [], _ => Memory.unlisted
  | (key, byte) :: rest, addr => if addr = key then byte else Memory.readCell rest addr

/-- Put a listed byte in its place by address. -/
def Memory.insertCell : Memory → Nat → Byte → Memory
  | [], addr, v => [(addr, v)]
  | (key, byte) :: rest, addr, v =>
    if addr < key then (addr, v) :: (key, byte) :: rest
    else if addr = key then (addr, v) :: rest
    else (key, byte) :: Memory.insertCell rest addr v

/-- Take a cell out of the list. -/
def Memory.eraseCell : Memory → Nat → Memory
  | [], _ => []
  | (key, byte) :: rest, addr =>
    if addr = key then Memory.eraseCell rest addr else (key, byte) :: Memory.eraseCell rest addr

/-- Write one cell and keep the canonical form: the unlisted value is not listed. -/
def Memory.writeCell (m : Memory) (addr : Nat) (v : Byte) : Memory :=
  if v = Memory.unlisted then Memory.eraseCell m addr else Memory.insertCell m addr v

/-- The canonical form from an address on: rising addresses below 65536, no unlisted value. -/
def Memory.wfFrom : Nat → Memory → Bool
  | _, [] => true
  | low, (key, byte) :: rest =>
    decide (low ≤ key) && decide (key < Config.memorySize) && (byte != Memory.unlisted) &&
      Memory.wfFrom (key + 1) rest

/-- The canonical form of memory (log entry 9). -/
def Memory.wf (m : Memory) : Bool := Memory.wfFrom 0 m

/-- `MemRead(addr, 1)`: total, changes nothing (R51, R54). -/
def State.readMem (s : State) (addr : Word) : Byte := Memory.readCell s.mem addr.toNat

/-- `MemWrite(addr, 1, v)`: sets one cell and changes nothing else (R52, R54). -/
def State.writeMem (s : State) (addr : Word) (v : Byte) : State :=
  { s with mem := Memory.writeCell s.mem addr.toNat v }

/-- The accessor `read` for a caller that can pass any number (R51, R182). -/
def busRead (addr : Nat) (s : State) : Except Fault Byte :=
  if addr < Config.memorySize then .ok (s.readMem (BitVec.ofNat 16 addr)) else .error (.outOfBounds addr)

/-- The accessor `write` for a caller that can pass any number; the value is cut to 8 bits (R52, R182). -/
def busWrite (addr v : Nat) (s : State) : Except Fault State :=
  if addr < Config.memorySize then .ok (s.writeMem (BitVec.ofNat 16 addr) (BitVec.ofNat 8 v))
  else .error (.outOfBounds addr)

/-- Write PC. -/
def State.setPc (s : State) (target : Word) : State := { s with pc := target }

/-- Move PC past `n` instruction bytes, mod 65536 (R24, R53). -/
def State.advance (s : State) (n : Nat) : State := s.setPc (s.pc + BitVec.ofNat 16 n)

/-- `FetchNext()`: the byte at PC, and the state with PC moved past it (R53). -/
def State.fetchNext (s : State) : Byte × State := (s.readMem s.pc, s.advance 1)

/-- Write A. -/
def State.setA (s : State) (v : Byte) : State := { s with a := v }

/-- Write the flag register. -/
def State.setFlags (s : State) (f : Flags) : State := { s with flags := f }

/-- Add to the cycle counter (R122). -/
def State.charge (s : State) (n : Nat) : State := { s with cycles := s.cycles + n }

/-- Enter `Halted` (R36). -/
def State.halt (s : State) : State := { s with run := .halted }

end Sys2Proof.Machine
end

