-- ==== Sys2Proof/Machine/Operands.lean ====
section
/-! DEFINITION. The addressing_mode_resolver (40_dispatch_and_addressing.md R108 to R111). The operand byte
comes with the decoded instruction and the state is the one at its opcode byte: PC still addresses the opcode
(log entry 13). -/

namespace Sys2Proof.Machine

/-- Immediate: the operand byte itself, no extension (R109, R83). -/
def immOperand (m : Byte) : Byte := m

/-- Zero-page: the effective address, high byte 0x00 (R110, R12). -/
def zpAddr (z : Byte) : Word := z.setWidth 16

/-- Zero-page: the operand value read there (R110). -/
def zpOperand (z : Byte) (s : State) : Byte := s.readMem (zpAddr z)

/-- Relative: the address after the branch, to which the displacement is added (R111, R161; DEDUCED, log
entry 8). -/
def relBase (s : State) : Word := s.pc + 2#16

/-- Relative: the branch target, mod 65536 (R111, R12). -/
def relTarget (d : Byte) (s : State) : Word := relBase s + d.signExtend 16

/-- The page of an address, its high byte (R10). -/
def pageOf (addr : Word) : Byte := addr.extractLsb' 8 8

/-- The taken branch leaves the page of the address after it (R162; DESIGN CHOICE of the spec, D10, log entry
7, unsafe). -/
def relCrosses (d : Byte) (s : State) : Bool := pageOf (relBase s) != pageOf (relTarget d s)

/-- What a taken branch adds to its base cost (R162). -/
def takenPenalty (d : Byte) (s : State) : Nat := if relCrosses d s then 2 else 1

end Sys2Proof.Machine
end

