-- ==== Sys2Proof/Machine/Arith.lean ====
section
/-! DEFINITION. The meanings of the arithmetic and compare instructions (42_arithmetic_compare.md). -/

namespace Sys2Proof.Machine

/-- ADC immediate (R140): binary whatever D holds (D11, log entry 12). -/
def execAdcImm (m : Byte) (s : State) : Host.Outcome State Fault Refusal :=
  let v := immOperand m
  .next ((((s.setA (aluAdd s.a v s.flags.c)).setFlags (s.flags.afterAdc s.a v)).advance 2).charge 2)

/-- CMP immediate (R141): only flags. -/
def execCmpImm (m : Byte) (s : State) : Host.Outcome State Fault Refusal :=
  .next (((s.setFlags (s.flags.afterCmp s.a (immOperand m))).advance 2).charge 2)

/-- INC zero-page (R142): read, then write the same cell; C is not touched. -/
def execIncZp (z : Byte) (s : State) : Host.Outcome State Fault Refusal :=
  let out := aluInc (zpOperand z s)
  .next ((((s.writeMem (zpAddr z) out).setFlags (s.flags.setZN out)).advance 2).charge 5)

end Sys2Proof.Machine
end

