-- ==== Sys2Proof/Machine/Branch.lean ====
section
/-! DEFINITION. The meaning of the one control transfer (43_branch.md). -/

namespace Sys2Proof.Machine

/-- BCC relative (R160): taken while C is false; 2 cycles, 3 taken, 4 taken into another page (R162). -/
def execBccRel (d : Byte) (s : State) : Host.Outcome State Fault Refusal :=
  if s.flags.c then .next ((s.setPc (relBase s)).charge 2)
  else .next ((s.setPc (relTarget d s)).charge (2 + takenPenalty d s))

end Sys2Proof.Machine
end

