-- ==== Sys2Proof/Machine/LoadStore.lean ====
section
/-! DEFINITION. The meanings of the load and store instructions (41_load_store.md). Each takes the state with PC
at its opcode byte, does its effect, moves PC past its bytes and adds its cycles, in one step (R104). -/

namespace Sys2Proof.Machine

/-- Load A and derive Z and N from the byte loaded (R113, R121): shared by both forms of LDA. -/
def State.loadA (s : State) (v : Byte) : State := (s.setA (aluPass v)).setFlags (s.flags.setZN (aluPass v))

/-- LDA immediate (R130). -/
def execLdaImm (m : Byte) (s : State) : Host.Outcome State Fault Refusal :=
  .next (((s.loadA (immOperand m)).advance 2).charge 2)

/-- LDA zero-page (R131). -/
def execLdaZp (z : Byte) (s : State) : Host.Outcome State Fault Refusal :=
  .next (((s.loadA (zpOperand z s)).advance 2).charge 3)

/-- STA zero-page (R132). -/
def execStaZp (z : Byte) (s : State) : Host.Outcome State Fault Refusal :=
  .next (((s.writeMem (zpAddr z) s.a).advance 2).charge 3)

end Sys2Proof.Machine
end

