-- ==== Sys2Proof/Machine/System.lean ====
section
/-! DEFINITION. The meanings of BRK and NOP (44_system.md). -/

namespace Sys2Proof.Machine

/-- BRK (R170): sets B and halts; no push, no vector, no jump. -/
def execBrk (s : State) : Host.Outcome State Fault Refusal :=
  .next ((((s.setFlags s.flags.setBreak).halt).advance 1).charge Config.brkCycles)

/-- NOP (R171). -/
def execNop (s : State) : Host.Outcome State Fault Refusal := .next ((s.advance 1).charge 2)

end Sys2Proof.Machine
end

