-- ==== Sys2Proof/Syntax.lean ====
section
/-! DEFINITION. The instructions: one constructor per row of spec/opcode_table.json (30_encoding.md R84). -/

namespace Sys2Proof

/-- The nine instructions, in the order of the opcode table. A two-byte form carries its operand byte
(R82); what the byte means is the addressing mode's matter (Machine/Operands.lean). -/
inductive Instr where
  /-- BRK, 0x00, no operand (R170). -/
  | brk
  /-- ADC immediate, 0x69: `m` is the value added (R140). -/
  | adcImm (m : Byte)
  /-- STA zero-page, 0x85: `z` is the low byte of the address (R132). -/
  | staZp (z : Byte)
  /-- BCC relative, 0x90: `d` is the two's-complement displacement (R160). -/
  | bccRel (d : Byte)
  /-- LDA zero-page, 0xA5: `z` is the low byte of the address (R131). -/
  | ldaZp (z : Byte)
  /-- LDA immediate, 0xA9: `m` is the value loaded (R130). -/
  | ldaImm (m : Byte)
  /-- CMP immediate, 0xC9: `m` is the value compared with A (R141). -/
  | cmpImm (m : Byte)
  /-- INC zero-page, 0xE6: `z` is the low byte of the address (R142). -/
  | incZp (z : Byte)
  /-- NOP, 0xEA, no operand (R171). -/
  | nop
  deriving DecidableEq, Repr

end Sys2Proof
end

