-- ==== Sys2Proof/Machine/Dispatch.lean ====
section
/-! DEFINITION. The instruction_dispatcher's table of meanings: one arm per constructor of Instr (R101, R107). -/

namespace Sys2Proof.Machine

def exec (i : Instr) (s : State) : Host.Outcome State Fault Refusal :=
  match i with
  | .brk => Sys2Proof.Machine.execBrk s
  | .adcImm m => Sys2Proof.Machine.execAdcImm m s
  | .staZp z => Sys2Proof.Machine.execStaZp z s
  | .bccRel d => Sys2Proof.Machine.execBccRel d s
  | .ldaZp z => Sys2Proof.Machine.execLdaZp z s
  | .ldaImm m => Sys2Proof.Machine.execLdaImm m s
  | .cmpImm m => Sys2Proof.Machine.execCmpImm m s
  | .incZp z => Sys2Proof.Machine.execIncZp z s
  | .nop => Sys2Proof.Machine.execNop s

end Sys2Proof.Machine
end

