-- ==== Sys2Proof/WellFormed.lean ====
section
/-! DEFINITION. What is well formed: an instruction, and a program the host asks to load. -/

namespace Sys2Proof

/-- Every instruction is well formed: "all 256 values are legal for every format" (30_encoding.md R88),
and an operand is a byte by its type. The one arm per constructor is where a check would stand. -/
def Instr.wellFormed : Instr → Bool
  | .brk => true
  | .adcImm _ => true
  | .staZp _ => true
  | .bccRel _ => true
  | .ldaZp _ => true
  | .ldaImm _ => true
  | .cmpImm _ => true
  | .incZp _ => true
  | .nop => true

/-- The Loads the model admits: no byte lies above 0xFFFF (70_reset_and_hazards.md R203, D9). -/
def loadFits (origin : Word) (bytes : List Nat) : Bool :=
  decide (origin.toNat + bytes.length ≤ Config.memorySize)

end Sys2Proof
end

