-- ==== Sys2Proof/Decode.lean ====
section
/-! DEFINITION. The 6502_decoder (40_dispatch_and_addressing.md R107, 30_encoding.md R84): the table from
the opcode byte to its entry, the decoder on bytes, and after it the encoder. -/

namespace Sys2Proof

/-- The addressing modes, "each opcode statically implies exactly one" (R108). -/
inductive Mode where
  /-- "—": no operand, no operand byte. -/
  | none
  | immediate
  | zeroPage
  | relative
  deriving DecidableEq, Repr

/-- The seven status flags by name (10_state.md R26). -/
inductive Flag where
  | n | v | b | d | i | z | c
  deriving DecidableEq, Repr

/-- One row of the decoder table (R107); `make` builds the instruction from the operand byte. -/
structure Entry where
  opcode : Byte
  mnemonic : String
  mode : Mode
  baseCycles : Nat
  flagsWritten : List Flag
  make : Byte → Instr

/-- Why bytes are no instruction. -/
inductive DecodeError where
  /-- There is no opcode byte. -/
  | noByte
  /-- The opcode byte is not one of the nine (R87). -/
  | unimplementedOpcode (opcode : Byte)
  /-- The opcode takes an operand byte and none follows (R82). -/
  | missingOperand (opcode : Byte)
  deriving DecidableEq, Repr

/-- Bytes of an instruction: the mode alone fixes the length (R80, R85). -/
def Mode.length : Mode → Nat
  | .none => 1
  | .immediate => 2
  | .zeroPage => 2
  | .relative => 2

/-- The complete opcode map (R84). -/
def decoderTable : List Entry := [
  ⟨0x00#8, "BRK", .none, 0, [.b], fun _ => .brk⟩,
  ⟨0x69#8, "ADC", .immediate, 2, [.c, .z, .n, .v], .adcImm⟩,
  ⟨0x85#8, "STA", .zeroPage, 3, [], .staZp⟩,
  ⟨0x90#8, "BCC", .relative, 2, [], .bccRel⟩,
  ⟨0xA5#8, "LDA", .zeroPage, 3, [.z, .n], .ldaZp⟩,
  ⟨0xA9#8, "LDA", .immediate, 2, [.z, .n], .ldaImm⟩,
  ⟨0xC9#8, "CMP", .immediate, 2, [.c, .z, .n], .cmpImm⟩,
  ⟨0xE6#8, "INC", .zeroPage, 5, [.z, .n], .incZp⟩,
  ⟨0xEA#8, "NOP", .none, 2, [], fun _ => .nop⟩]

/-- The entry of an opcode byte, matched on all eight bits (R86); `none` is the table's `valid = false`. -/
def decoderEntry (opcode : Byte) : Option Entry :=
  decoderTable.find? fun e => e.opcode == opcode

/-- The length the opcode alone gives; an unimplemented opcode has none (R85). -/
def opcodeLength (opcode : Byte) : Option Nat :=
  (decoderEntry opcode).map fun e => e.mode.length

/-- Decode the instruction at the head of a list of bytes and give the rest back (R80 to R87). -/
def decode : List Byte → Except DecodeError (Instr × List Byte)
  | [] => .error .noByte
  | opcode :: rest =>
    match decoderEntry opcode with
    | none => .error (.unimplementedOpcode opcode)
    | some e =>
      if e.mode = .none then .ok (e.make 0, rest)
      else
        match rest with
        | [] => .error (.missingOperand opcode)
        | operand :: rest' => .ok (e.make operand, rest')

/-- The bytes of an instruction, opcode first (R81, R82, R84). -/
def encode : Instr → List Byte
  | .brk => [0x00#8]
  | .adcImm m => [0x69#8, m]
  | .staZp z => [0x85#8, z]
  | .bccRel d => [0x90#8, d]
  | .ldaZp z => [0xA5#8, z]
  | .ldaImm m => [0xA9#8, m]
  | .cmpImm m => [0xC9#8, m]
  | .incZp z => [0xE6#8, z]
  | .nop => [0xEA#8]

/-- The two bytes of a table word as memory holds them: the opcode byte is the first and its bits are
bits 7 to 0 of the word (R82); bits from `nbits` up are 0. -/
def tableBytes (nbits w : Nat) : List Byte :=
  let v := w % 2 ^ nbits
  [BitVec.ofNat 8 v, BitVec.ofNat 8 (v / 256)]

/-- What the decoder reads from a word numbered as spec/opcode_table.json numbers it. -/
def decodeTableWord (nbits w : Nat) : Option Instr :=
  match decode (tableBytes nbits w) with
  | .ok (i, _) => some i
  | .error _ => none

end Sys2Proof
end

