-- ==== Sys2Proof/Machine/Fetch.lean ====
section
/-! DEFINITION. Fetching an instruction's bytes at PC and decoding them (40_dispatch_and_addressing.md R101,
20_memory.md R53, R55), and placing bytes in memory. -/

namespace Sys2Proof.Machine

/-- The instruction bytes at PC: the opcode byte, and one operand byte where the opcode has one (R53, R80). -/
def fetchBytes (s : State) : List Byte :=
  let first := s.fetchNext
  match opcodeLength first.1 with
  | some 2 => [first.1, first.2.fetchNext.1]
  | _ => [first.1]

/-- Fetch and decode at PC. An opcode byte without an entry raises `UnimplementedOpcode` of itself (R101, R181);
the decoder's other errors cannot arise, since `fetchBytes` gives the bytes the opcode asks for. -/
def fetchInstr (s : State) : Except Fault Instr :=
  match decode (fetchBytes s) with
  | .ok (i, _) => .ok i
  | .error _ => .error (.unimplementedOpcode (s.readMem s.pc))

/-- Store bytes at consecutive addresses, wrapping as an instruction's bytes do (R58). -/
def placeBytes (addr : Word) : List Byte → State → State
  | [], s => s
  | b :: rest, s => placeBytes (addr + 1) rest (s.writeMem addr b)

end Sys2Proof.Machine
end

