-- ==== Sys2Proof/Machine/Step.lean ====
section
/-! DEFINITION. One Step of the CORE (40_dispatch_and_addressing.md R101 to R104), and the word placed where it
fetches. -/

namespace Sys2Proof.Machine

/-- Step (R101). A halted CORE has no transition and stays as it is (R103; log entry 1). A faulting step changes
nothing: the fault carries no state (R181). -/
def step (s : State) : Host.Outcome State Fault Refusal :=
  match s.run with
  | .halted => .next s
  | .running =>
    match fetchInstr s with
    | .ok i => exec i s
    | .error f => .fault f

/-- `s` with a table word's bytes at PC and the CORE running, so that the next step runs it (log entry 14). -/
def State.withFetchWord (s : State) (nbits w : Nat) : State :=
  { placeBytes s.pc (tableBytes nbits w) s with run := .running }

end Sys2Proof.Machine
end

