-- ==== Sys2Proof/Machine/HostOps.lean ====
section
/-! DEFINITION. The operations the host has on the CORE, all of them between Steps (70_reset_and_hazards.md R200
to R205, 40_dispatch_and_addressing.md R102, R105). Inspection is reading the fields of State and `busRead`
(60_exceptions.md R193). -/

namespace Sys2Proof.Machine

/-- `Reset(origin)`: from any state, always succeeds (R200). -/
def hostReset (origin : Word) (_s : State) : State := State.resetAt origin

/-- `SetPC(origin)`: only while Running (R202; log entry 11). -/
def hostSetPc (origin : Word) (s : State) : Host.Outcome State Fault Refusal :=
  match s.run with
  | .running => .next (s.setPc origin)
  | .halted => .refused .needsReset

/-- The writes of a Load, in order, each through the accessor `write` (R203). -/
def loadBytes : Nat → List Nat → State → Except Fault State
  | _, [], s => .ok s
  | addr, v :: rest, s =>
    match busWrite addr v s with
    | .ok t => loadBytes (addr + 1) rest t
    | .error f => .error f

/-- `Load(origin, bytes)`: refused whole if a byte would lie above 0xFFFF (R203, D9; log entry 10). -/
def hostLoad (origin : Word) (bytes : List Nat) (s : State) : Host.Outcome State Fault Refusal :=
  if loadFits origin bytes then
    match loadBytes origin.toNat bytes s with
    | .ok t => .next t
    | .error f => .fault f
  else .refused (.loadPastTop origin.toNat bytes.length)

/-- The three outcomes of a Step, as `execute_one()` returns them to the host (R102). -/
inductive StepResult where
  | ok (s : State)
  | halted (s : State)
  | fault (f : Fault)
  deriving DecidableEq, Repr

/-- `execute_one()`: none where the CORE has no Step, which is when it is halted (R102, R103; log entry 2). -/
def executeOne (s : State) : Option StepResult :=
  match s.run with
  | .halted => none
  | .running =>
    match step s with
    | .next t => some (match t.run with
      | .running => .ok t
      | .halted => .halted t)
    | .fault f => some (.fault f)
    | .refused _ => none

/-- How a Run ends (R105). -/
inductive RunResult where
  /-- A BRK halted the CORE in this state. -/
  | halted (s : State)
  /-- A Step raised an error; the state is the one it left unchanged. -/
  | faulted (f : Fault) (s : State)
  /-- `MAX_STEPS` Steps were done; neither a fault nor a halt. -/
  | outOfBudget (s : State)
  /-- The Run was not admitted. -/
  | refused (r : Refusal)
  deriving DecidableEq, Repr

/-- The loop of Run: Step until Halted, an error, or the budget is used up (R105). -/
def runLoop : Nat → State → RunResult
  | 0, s => .outOfBudget s
  | n + 1, s =>
    match executeOne s with
    | some (.ok t) => runLoop n t
    | some (.halted t) => .halted t
    | some (.fault f) => .faulted f s
    | none => .refused .needsReset

/-- `Run(origin, MAX_STEPS)`: SetPC, then the loop (R105; log entry 16). -/
def hostRun (origin : Word) (maxSteps : Nat) (s : State) : RunResult :=
  match hostSetPc origin s with
  | .next t => runLoop maxSteps t
  | .fault f => .faulted f s
  | .refused r => .refused r

/-- `Run(origin, MAX_STEPS)` with `MAX_STEPS` infinite returns `r`: some number of Steps ends it. Where no `r` is
returned, the Run never ends (R105, R207; log entry 16). -/
def hostRunUnbounded (origin : Word) (s : State) (r : RunResult) : Prop :=
  (∃ maxSteps, hostRun origin maxSteps s = r) ∧ ∀ t, r ≠ .outOfBudget t

end Sys2Proof.Machine
end

