-- ==== Sys2Proof/Safety.lean ====
section
/-! DEFINITION. What the statements say of a run: the invariants, and the states a Reset leads to. -/

namespace Sys2Proof.Safety

open Sys2Proof.Machine

/-- Memory is in canonical form (log entry 9). -/
abbrev MemCanonical (s : State) : Prop := Memory.wf s.mem = true

/-- B and the run state move together (10_state.md R41). -/
abbrev BreakMirrorsHalt (s : State) : Prop := s.flags.b = true ↔ s.run = .halted

/-- The state no instruction can change, at its reset values (10_state.md R40). -/
abbrev InertAtReset (s : State) : Prop :=
  s.x = 0 ∧ s.y = 0 ∧ s.sp = Config.resetSp ∧ s.flags.d = false ∧ s.flags.i = false

/-- The invariant of the machine. -/
abbrev Inv (s : State) : Prop := MemCanonical s ∧ BreakMirrorsHalt s ∧ InertAtReset s

/-- Reachable from a Reset by Steps, Loads and SetPCs (R40, R205). -/
inductive Reachable : State → Prop where
  | reset (origin : Word) : Reachable (State.resetAt origin)
  | step (s t : State) : Reachable s → Machine.step s = .next t → Reachable t
  | load (s t : State) (origin : Word) (bytes : List Nat) :
      Reachable s → hostLoad origin bytes s = .next t → Reachable t
  | setPc (s t : State) (origin : Word) :
      Reachable s → hostSetPc origin s = .next t → Reachable t

/-- One flag by its name. -/
def flagOf (f : Flags) : Flag → Bool
  | .n => f.n
  | .v => f.v
  | .b => f.b
  | .d => f.d
  | .i => f.i
  | .z => f.z
  | .c => f.c

/-- An instruction that stores to memory: STA and INC, and no other (20_memory.md R55). -/
def stores : Instr → Bool
  | .staZp _ => true
  | .incZp _ => true
  | _ => false

/-- An instruction that writes A: both forms of LDA, and ADC (10_state.md R21). -/
def writesA : Instr → Bool
  | .ldaImm _ => true
  | .ldaZp _ => true
  | .adcImm _ => true
  | _ => false

/-- The nine implemented opcode bytes, as R84 lists them: "The set of implemented opcode bytes is exactly". -/
def implementedOpcodes : List Byte :=
  [0x00#8, 0x69#8, 0x85#8, 0x90#8, 0xA5#8, 0xA9#8, 0xC9#8, 0xE6#8, 0xEA#8]

/-- A signed displacement added to an address, on integers and mod 65536 (R12). -/
def displaced (base : Word) (d : Byte) : Word := BitVec.ofInt 16 ((base.toNat : Int) + d.toInt)

/-- Add digit pairs by running LDA and ADC for each, least significant first: the sum's digits and the last
carry (42_arithmetic_compare.md R143). -/
def adcDigits : List (Byte × Byte) → State → Option (List Byte × Bool)
  | [], s => some ([], s.flags.c)
  | (a, m) :: rest, s =>
    match exec (.ldaImm a) s with
    | .next t =>
      match exec (.adcImm m) t with
      | .next u => (adcDigits rest u).map fun r => (u.a :: r.1, r.2)
      | _ => none
    | _ => none

/-- The number whose base-256 digits these are, least significant first. -/
def digitsValue : List Byte → Nat
  | [] => 0
  | d :: rest => d.toNat + 256 * digitsValue rest

end Sys2Proof.Safety
end

