-- ==== Sys2Proof/Certificates/Slice0/Obligations.lean ====
section
/-! DEFINITION. The statements for the provers, from the spec's numbered rules. A docstring names the rule; where a
clause rests on a choice or an inference (a log entry), it says so. -/

open Sys2Proof Sys2Proof.Machine Sys2Proof.Safety

/-! ## Reset and the host's operations -/

/-- 70_reset_and_hazards.md R201: "for all prior states, after `reset()`, SP == 0xFD, PC == origin argument
(default 0), all flags false, cycle counter == 0, and every memory cell == 0", with A = X = Y = 0. -/
def Obligations.ResetInvariant : Prop :=
  (∀ (s : State) (origin : Word),
    let t := hostReset origin s
    t.sp = 0xFD#8 ∧ t.pc = origin ∧
      t.flags = { n := false, v := false, b := false, d := false, i := false, z := false, c := false } ∧
      t.cycles = 0 ∧ (∀ addr : Word, t.readMem addr = 0x00#8) ∧ t.a = 0 ∧ t.x = 0 ∧ t.y = 0) ∧
  (∀ s : State, State.reset = hostReset 0x0000#16 s)

/-- 10_state.md R39, R100: Reset leaves the CORE Running from any state, Halted included. That the run state after
Reset is Running is the spec's decision D7 (log entry 11). -/
def Obligations.ResetLeavesRunning : Prop :=
  ∀ (s : State) (origin : Word), (hostReset origin s).run = .running

/-- 70_reset_and_hazards.md R209: "a host that loads first and resets second runs an all-zero memory: the first Step
executes BRK at the origin", whatever was loaded. What BRK does is `BrkResult`. -/
def Obligations.FirstStepAfterResetIsBrk : Prop :=
  ∀ (s t : State) (bytes : List Nat) (at_ origin : Word), hostLoad at_ bytes s = .next t →
    step (hostReset origin t) = exec .brk (hostReset origin t)

/-- 70_reset_and_hazards.md R202: `SetPC(origin)` sets PC, changes nothing else, and is allowed only when Running; when
halted the model refuses it (the spec's decision D7, log entry 11). -/
def Obligations.SetPcResult : Prop :=
  ∀ (s : State) (origin : Word),
    (s.run = .running → hostSetPc origin s = .next { s with pc := origin }) ∧
    (s.run = .halted → hostSetPc origin s = .refused .needsReset)

/-- 70_reset_and_hazards.md R203: a Load that fits writes byte `k` at `origin + k`, cut to 8 bits, and changes
memory only and no other cell; one that would pass 0xFFFF is refused whole (the spec's decision D9, log entry 10). -/
def Obligations.LoadResult : Prop :=
  ∀ (s : State) (origin : Word) (bytes : List Nat),
    (origin.toNat + bytes.length ≤ 65536 → ∃ t, hostLoad origin bytes s = .next t ∧ t = { s with mem := t.mem } ∧
      (∀ k v, bytes[k]? = some v → t.readMem (BitVec.ofNat 16 (origin.toNat + k)) = BitVec.ofNat 8 v) ∧
      (∀ addr : Word, addr.toNat < origin.toNat ∨ origin.toNat + bytes.length ≤ addr.toNat →
        t.readMem addr = s.readMem addr)) ∧
    (65536 < origin.toNat + bytes.length →
      hostLoad origin bytes s = .refused (.loadPastTop origin.toNat bytes.length))

/-- 40_dispatch_and_addressing.md R105, R106: the loop of Run returns Halted only in a halted state, returns a fault
only in a state whose next Step faults in the same way and has changed nothing, and runs out of budget only while
Running. That a fault repeats is the spec's inference in R106; the state it leaves is D6 (log entry 6). That the loop
does return these where the Steps give them is `RunRepeatsStep`. -/
def Obligations.RunLoopOutcomes : Prop :=
  ∀ (n : Nat) (s : State), s.run = .running →
    (∀ t, runLoop n s = .halted t → t.run = .halted ∧ t.flags.b = true) ∧
    (∀ f t, runLoop n s = .faulted f t → t.run = .running ∧ step t = .fault f) ∧
    (∀ t, runLoop n s = .outOfBudget t → t.run = .running) ∧
    (∀ r, runLoop n s ≠ .refused r)

/-- 40_dispatch_and_addressing.md R105: Run from a Running state sets PC and then repeats Step: with no budget left it
is out of budget, after a Step that leaves the CORE Running it goes on with one less, and it ends at the first Step
that halts or faults, with the state that Step left. That a fault leaves the state as it was is the spec's decision D6
(log entry 6); that a halted CORE's Run is refused is its decision D7 (log entry 11). -/
def Obligations.RunRepeatsStep : Prop :=
  ∀ (n : Nat) (s : State),
    (s.run = .running →
      (∀ origin, hostRun origin n s = runLoop n { s with pc := origin }) ∧
      runLoop 0 s = .outOfBudget s ∧
      (∀ t, step s = .next t → t.run = .running → runLoop (n + 1) s = runLoop n t) ∧
      (∀ t, step s = .next t → t.run = .halted → runLoop (n + 1) s = .halted t) ∧
      (∀ f, step s = .fault f → runLoop (n + 1) s = .faulted f s)) ∧
    (s.run = .halted → ∀ origin, hostRun origin n s = .refused .needsReset)

/-- 40_dispatch_and_addressing.md R105, 70_reset_and_hazards.md R213: a Run without a ceiling returns at most one
result, and a Run with a ceiling returns that result or uses its budget up. -/
def Obligations.UnboundedRunIsDetermined : Prop :=
  ∀ (origin : Word) (s : State) (r : RunResult), hostRunUnbounded origin s r →
    ∀ maxSteps, hostRun origin maxSteps s = r ∨ ∃ t, hostRun origin maxSteps s = .outOfBudget t

/-! ## Results of the instructions: each is its completion statement -/

/-- 41_load_store.md R130: LDA immediate. -/
def Obligations.LdaImmediateResult : Prop :=
  ∀ (m : Byte) (s : State), exec (.ldaImm m) s = .next
    { s with
      a := m
      flags := { s.flags with z := decide (m = 0x00#8), n := m.getLsbD 7 }
      pc := s.pc + 2#16
      cycles := s.cycles + 2 }

/-- 41_load_store.md R131: LDA zero-page. -/
def Obligations.LdaZeroPageResult : Prop :=
  ∀ (z : Byte) (s : State), exec (.ldaZp z) s = .next
    { s with
      a := s.readMem (z.setWidth 16)
      flags := { s.flags with
        z := decide (s.readMem (z.setWidth 16) = 0x00#8)
        n := (s.readMem (z.setWidth 16)).getLsbD 7 }
      pc := s.pc + 2#16
      cycles := s.cycles + 3 }

/-- 41_load_store.md R132: STA zero-page stores A in its cell and changes nothing else but PC and cycles. -/
def Obligations.StaZeroPageResult : Prop :=
  ∀ (z : Byte) (s : State), ∃ t, exec (.staZp z) s = .next t ∧
    t = { s with mem := t.mem, pc := s.pc + 2#16, cycles := s.cycles + 3 } ∧
    t.readMem (z.setWidth 16) = s.a ∧
    ∀ addr : Word, addr ≠ z.setWidth 16 → t.readMem addr = s.readMem addr

/-- 42_arithmetic_compare.md R140: ADC immediate, on the untruncated sum. That V is written is the spec's decision
D3 (log entry 4), and that D is ignored is D11 (log entry 12). -/
def Obligations.AdcImmediateResult : Prop :=
  ∀ (m : Byte) (s : State),
    let sum := s.a.toNat + m.toNat + (if s.flags.c then 1 else 0)
    exec (.adcImm m) s = .next
      { s with
        a := BitVec.ofNat 8 sum
        flags := { s.flags with
          v := decide (((s.a.toNat ^^^ sum) &&& (m.toNat ^^^ sum) &&& 0x80) ≠ 0)
          c := decide (sum > 255)
          z := decide (sum % 256 = 0)
          n := sum.testBit 7 }
        pc := s.pc + 2#16
        cycles := s.cycles + 2 }

/-- 42_arithmetic_compare.md R141 and R144: CMP immediate writes C, Z and N only. -/
def Obligations.CmpImmediateResult : Prop :=
  ∀ (m : Byte) (s : State), exec (.cmpImm m) s = .next
    { s with
      flags := { s.flags with
        c := decide (m.toNat ≤ s.a.toNat)
        z := decide (s.a = m)
        n := (s.a - m).getLsbD 7 }
      pc := s.pc + 2#16
      cycles := s.cycles + 2 }

/-- 42_arithmetic_compare.md R142: INC zero-page adds one mod 256 to its cell, writes Z and N from it, and changes
nothing else but PC and cycles. -/
def Obligations.IncZeroPageResult : Prop :=
  ∀ (z : Byte) (s : State),
    let out := s.readMem (z.setWidth 16) + 1#8
    ∃ t, exec (.incZp z) s = .next t ∧
      t = { s with
        mem := t.mem
        flags := { s.flags with z := decide (out = 0x00#8), n := out.getLsbD 7 }
        pc := s.pc + 2#16
        cycles := s.cycles + 5 } ∧
      t.readMem (z.setWidth 16) = out ∧
      ∀ addr : Word, addr ≠ z.setWidth 16 → t.readMem addr = s.readMem addr

/-- 43_branch.md R160, R162: BCC relative, not taken, taken within the page of the next instruction, and taken into
another page; PC and cycles only. That the displacement counts from a + 2 is the spec's inference (R161, log entry 8)
and that its page is the one compared is its decision D10 (log entry 7). -/
def Obligations.BccResult : Prop :=
  ∀ (d : Byte) (s : State),
    let base := s.pc + 2#16
    let target := displaced base d
    exec (.bccRel d) s = .next
      (if s.flags.c = true then { s with pc := base, cycles := s.cycles + 2 }
      else if base.toNat / 256 = target.toNat / 256 then { s with pc := target, cycles := s.cycles + 3 }
      else { s with pc := target, cycles := s.cycles + 4 })

/-- 44_system.md R170: BRK sets B and halts; PC moves past its one byte (the spec's inference, log entry 19) and
the cycle counter stays (the spec's decision D4, log entry 3). -/
def Obligations.BrkResult : Prop :=
  ∀ s : State, exec .brk s = .next
    { s with flags := { s.flags with b := true }, run := .halted, pc := s.pc + 1#16 }

/-- 44_system.md R171: NOP moves PC past its one byte and adds 2 cycles. -/
def Obligations.NopResult : Prop :=
  ∀ s : State, exec .nop s = .next { s with pc := s.pc + 1#16, cycles := s.cycles + 2 }

/-! ## Laws of the arithmetic and the flags -/

/-- 41_load_store.md R133: the load flag law, for every byte `v` either form of LDA loads. -/
def Obligations.LoadFlagLaw : Prop :=
  ∀ (i : Instr) (v : Byte) (s : State),
    (i = .ldaImm v ∨ ∃ z, i = .ldaZp z ∧ s.readMem (z.setWidth 16) = v) →
    ∃ t, exec i s = .next t ∧ t.a = v ∧ (t.flags.z = true ↔ v = 0) ∧ (t.flags.n = true ↔ 128 ≤ v.toNat) ∧
      ¬ (t.flags.z = true ∧ t.flags.n = true) ∧ (t.a = 0 ↔ t.flags.z = true)

/-- 42_arithmetic_compare.md R143: "result = a+m+c_in; A_after == result & 0xFF and C_after == (result > 255)". -/
def Obligations.AdcCarryLaw : Prop :=
  ∀ (a m : Byte) (c : Bool) (s : State), s.a = a → s.flags.c = c →
    ∃ t, exec (.adcImm m) s = .next t ∧
      t.a.toNat = (a.toNat + m.toNat + c.toNat) &&& 0xFF ∧
      (t.flags.c = true ↔ a.toNat + m.toNat + c.toNat > 255)

/-- 42_arithmetic_compare.md R143, its inferred consequence: chaining ADCs through C adds multi-byte numbers exactly,
for any number of digits. -/
def Obligations.AdcChainAddsExactly : Prop :=
  ∀ (digits : List (Byte × Byte)) (s : State), ∃ out carry, adcDigits digits s = some (out, carry) ∧
    out.length = digits.length ∧
    digitsValue out + 256 ^ digits.length * carry.toNat =
      digitsValue (digits.map Prod.fst) + digitsValue (digits.map Prod.snd) + s.flags.c.toNat

/-- 40_dispatch_and_addressing.md R120, its inferred form: V after an ADC says that the signed sum with the carry in
lies outside -128 to 127. That ADC writes V is the spec's decision D3 (log entry 4). -/
def Obligations.AdcOverflowIsSignedOverflow : Prop :=
  ∀ (m : Byte) (s : State), ∃ t, exec (.adcImm m) s = .next t ∧
    (t.flags.v = true ↔
      s.a.toInt + m.toInt + (s.flags.c.toNat : Int) < -128 ∨ 127 < s.a.toInt + m.toInt + (s.flags.c.toNat : Int))

/-! ## Decode and encode -/

/-- 30_encoding.md R80 to R84: the bytes of every instruction, followed by any bytes, decode to it and leave the
rest. -/
def Obligations.DecodeOfEncode : Prop :=
  ∀ (i : Instr) (rest : List Byte), i.wellFormed = true → decode (encode i ++ rest) = .ok (i, rest)

/-- 30_encoding.md R84, R86: what decodes is the encoding of the instruction, so no two byte strings of one
length decode alike. -/
def Obligations.EncodeOfDecode : Prop :=
  ∀ (bytes : List Byte) (i : Instr) (rest : List Byte), decode bytes = .ok (i, rest) → bytes = encode i ++ rest

/-- 30_encoding.md R84, R87, R88: an opcode byte of the nine decodes with every operand byte after it, and any other
is refused with its own value whatever follows. -/
def Obligations.DecoderAcceptsExactlyTheNine : Prop :=
  ∀ (opcode operand : Byte) (rest : List Byte),
    (opcode ∈ implementedOpcodes → ∃ r, decode (opcode :: operand :: rest) = .ok r) ∧
    (opcode ∉ implementedOpcodes → decode (opcode :: rest) = .error (.unimplementedOpcode opcode))

/-- 30_encoding.md R85: the opcode byte alone gives the length that decoding consumes: one byte for 0x00 and 0xEA,
two for the others. -/
def Obligations.DecodeConsumesTheOpcodesLength : Prop :=
  ∀ (opcode : Byte) (tail : List Byte) (i : Instr) (rest : List Byte), decode (opcode :: tail) = .ok (i, rest) →
    tail.length + 1 = rest.length + (if opcode = 0x00#8 ∨ opcode = 0xEA#8 then 1 else 2)

/-- 30_encoding.md R84: words written out from the opcode map, one of each format and family. -/
def Obligations.SpecWordsDecode : Prop :=
  decodeTableWord 8 0b00000000 = some .brk ∧ decodeTableWord 8 0b11101010 = some .nop ∧
    decodeTableWord 16 0b1010010110101001 = some (.ldaImm 0xA5#8) ∧
    decodeTableWord 16 0b0000000111100110 = some (.incZp 0x01#8) ∧
    decodeTableWord 16 0b1111111110000101 = some (.staZp 0xFF#8) ∧
    decodeTableWord 16 0b1111011010010000 = some (.bccRel 0xF6#8) ∧
    decodeTableWord 8 0b10101010 = none

/-! ## The Step -/

/-- 40_dispatch_and_addressing.md R101: while Running, when the bytes at PC decode to a well-formed instruction,
the step is that instruction's meaning, which itself moves PC past the instruction's bytes (log entry 13). -/
def Obligations.StepRunsTheDecodedInstruction : Prop :=
  ∀ (s : State) (i : Instr) (rest : List Byte), s.run = .running →
    decode [s.readMem s.pc, s.readMem (s.pc + 1#16)] = .ok (i, rest) → i.wellFormed = true → step s = exec i s

/-- 30_encoding.md R87, 60_exceptions.md R181: an illegal opcode byte at PC faults with its own value, and a Run
that meets it stops there with the state as it was (the spec's decision D6, log entry 6). -/
def Obligations.IllegalOpcodeFaults : Prop :=
  ∀ s : State, s.run = .running → s.readMem s.pc ∉ implementedOpcodes →
    step s = .fault (.unimplementedOpcode (s.readMem s.pc)) ∧
    ∀ n, runLoop (n + 1) s = .faulted (.unimplementedOpcode (s.readMem s.pc)) s

/-- 60_exceptions.md R183, R181, 40_dispatch_and_addressing.md R102: every implemented instruction always completes, the
only fault a Step can end in is UnimplementedOpcode, whose payload is the byte at PC (R181), and a Step never refuses.
That `step` does not refuse in a halted state either is the model's choice (log entry 1). That Reset raises no error is in the type of `hostReset`, which answers a state. -/
def Obligations.NoInstructionFaults : Prop :=
  (∀ (i : Instr) (s : State), ∃ t, exec i s = .next t) ∧
  (∀ (s : State) (f : Fault), step s = .fault f → f = .unimplementedOpcode (s.readMem s.pc)) ∧
  (∀ (s : State) (r : Refusal), step s ≠ .refused r)

/-- 10_state.md R36: a Step leaves the CORE halted "exactly when the BRK opcode (0x00) is decoded". -/
def Obligations.StepHaltsExactlyAtBrk : Prop :=
  ∀ s t : State, s.run = .running → step s = .next t → (t.run = .halted ↔ s.readMem s.pc = 0x00#8)

/-- 40_dispatch_and_addressing.md R103: a halted CORE stays as it is and has no Step. That `step` answers the state
itself is the model's choice (log entry 1), over the spec's decision D7. -/
def Obligations.HaltedStaysAsItIs : Prop :=
  ∀ s : State, s.run = .halted → step s = .next s ∧ executeOne s = none

/-- 20_memory.md R53: `FetchNext()` gives the byte at PC, moves PC by one mod 65536 and changes nothing else. -/
def Obligations.FetchNextResult : Prop :=
  ∀ s : State, s.fetchNext = (s.readMem s.pc, { s with pc := BitVec.ofNat 16 ((s.pc.toNat + 1) % 65536) })

/-- 43_branch.md R163, which the spec marks as derived: PC after each instruction. BCC's base is its inference (log
entry 8), and so is a + 1 after BRK (log entry 19). -/
def Obligations.PcAfterEachInstruction : Prop :=
  ∀ (i : Instr) (s t : State), exec i s = .next t →
    t.pc = match i with
      | .brk => s.pc + 1#16
      | .nop => s.pc + 1#16
      | .bccRel d => if s.flags.c = true then s.pc + 2#16 else displaced (s.pc + 2#16) d
      | _ => s.pc + 2#16

/-- 40_dispatch_and_addressing.md R122: every instruction adds its base cycles of the decoder table, and BCC alone a
penalty: none, 1 taken, 2 taken into another page. BRK's figure is D4 (log entry 3), the page compared is D10 (log
entry 7). -/
def Obligations.CyclesAddedAreTheTables : Prop :=
  ∀ (i : Instr) (s t : State) (opcode : Byte) (tail : List Byte) (e : Entry), encode i = opcode :: tail →
    decoderEntry opcode = some e → exec i s = .next t →
    t.cycles = s.cycles + e.baseCycles + match i with
      | .bccRel d =>
        if s.flags.c = true then 0
        else if (s.pc + 2#16).toNat / 256 = (displaced (s.pc + 2#16) d).toNat / 256 then 1 else 2
      | _ => 0

/-! ## Frames -/

/-- 10_state.md R21, R22, R23, R25: no instruction writes X, Y or SP (sentences the spec marks as derived), and only
LDA and ADC write A. -/
def Obligations.RegisterFrame : Prop :=
  ∀ (i : Instr) (s t : State), exec i s = .next t →
    t.x = s.x ∧ t.y = s.y ∧ t.sp = s.sp ∧ (writesA i = false → t.a = s.a)

/-- 40_dispatch_and_addressing.md R121: a flag the decoder table does not list for an instruction is unchanged by
it; D and I are listed for none. -/
def Obligations.FlagFrame : Prop :=
  ∀ (i : Instr) (s t : State) (opcode : Byte) (tail : List Byte) (e : Entry), encode i = opcode :: tail →
    decoderEntry opcode = some e → exec i s = .next t →
    (∀ f, f ∉ e.flagsWritten → flagOf t.flags f = flagOf s.flags f) ∧ .d ∉ e.flagsWritten ∧ .i ∉ e.flagsWritten

/-- 20_memory.md R55: BRK, NOP, LDA, ADC, CMP and BCC store nothing: every byte of memory reads as before. -/
def Obligations.MemoryFrameOfNonStoring : Prop :=
  ∀ (i : Instr) (s t : State), stores i = false → exec i s = .next t →
    ∀ addr : Word, t.readMem addr = s.readMem addr

/-- 20_memory.md R52, R55: STA and INC change the one byte at their zero-page address and no other. -/
def Obligations.MemoryFrameOfStores : Prop :=
  ∀ (z : Byte) (s t : State), (exec (.staZp z) s = .next t ∨ exec (.incZp z) s = .next t) →
    ∀ addr : Word, addr ≠ zpAddr z → t.readMem addr = s.readMem addr

/-- 70_reset_and_hazards.md R210: no Step changes a byte outside the zero page. -/
def Obligations.StepWritesOnlyTheZeroPage : Prop :=
  ∀ s t : State, step s = .next t → ∀ addr : Word, 0x0100 ≤ addr.toNat → t.readMem addr = s.readMem addr

/-- 20_memory.md R62, an inference of the spec's: what STA or INC stores, A or the incremented byte, is what the next
Step fetches, as its opcode byte where the cell is at PC, and as its operand byte where the cell is at PC + 1 and the
opcode at PC has one. -/
def Obligations.NextFetchSeesTheStore : Prop :=
  ∀ (i : Instr) (z v : Byte) (s t : State),
    (i = .staZp z ∧ v = s.a ∨ i = .incZp z ∧ v = s.readMem (zpAddr z) + 1#8) → exec i s = .next t →
    (t.pc = zpAddr z → (fetchBytes t)[0]? = some v) ∧
    (t.pc + 1#16 = zpAddr z → opcodeLength (t.readMem t.pc) = some 2 → (fetchBytes t)[1]? = some v)

/-! ## What instructions read -/

/-- 40_dispatch_and_addressing.md R121: no instruction reads a flag but C: with the other six flags at any values, the
next state has the same flags written, and the same everything else. -/
def Obligations.OnlyCarryIsRead : Prop :=
  ∀ (i : Instr) (s t : State) (f : Flags), f.c = s.flags.c → exec i s = .next t →
    ∃ u, exec i { s with flags := f } = .next u ∧ { u with flags := t.flags } = t ∧
      ∀ (opcode : Byte) (tail : List Byte) (e : Entry), encode i = opcode :: tail → decoderEntry opcode = some e →
        ∀ g, (g ∈ e.flagsWritten → flagOf u.flags g = flagOf t.flags g) ∧
          (g ∉ e.flagsWritten → flagOf u.flags g = flagOf f g)

/-- 10_state.md R22, R23, R25, R30, R31, R35: no instruction reads or writes X, Y, SP, D or I, and none reads the
cycle counter: an instruction run from other values of them gives the same next state but for them. For X, Y and SP
the spec marks this as derived; that D and I change nothing is its decisions D11 and D12 (log entry 12). -/
def Obligations.InertStateIsNeitherReadNorWritten : Prop :=
  ∀ (i : Instr) (s t : State) (x y sp : Byte) (d ir : Bool) (k : Nat), exec i s = .next t →
    exec i { s with x := x, y := y, sp := sp, flags := { s.flags with d := d, i := ir }, cycles := s.cycles + k } =
      .next { t with x := x, y := y, sp := sp, flags := { t.flags with d := d, i := ir }, cycles := t.cycles + k }

/-! ## The accessors -/

/-- 60_exceptions.md R182, 20_memory.md R51, R52: the accessors succeed exactly on 0 to 65535 (90_conflicts.md C6); a
write then reads back cut to 8 bits and changes no other byte and nothing but memory. The place of the error in the
model is D9 (log entry 18). -/
def Obligations.AccessorsAndTheirBounds : Prop :=
  ∀ (addr v : Nat) (s : State),
    (addr ≤ 65535 → busRead addr s = .ok (s.readMem (BitVec.ofNat 16 addr)) ∧
      ∃ t, busWrite addr v s = .ok t ∧ t = { s with mem := t.mem } ∧ busRead addr t = .ok (BitVec.ofNat 8 v) ∧
        ∀ other, other ≠ addr → busRead other t = busRead other s) ∧
    (65535 < addr → busRead addr s = .error (.outOfBounds addr) ∧ busWrite addr v s = .error (.outOfBounds addr))

/-! ## Invariants -/

/-- The state after Reset meets the invariant (10_state.md R39; memory's form is log entry 9). -/
def Obligations.ResetMeetsInv : Prop := ∀ origin : Word, Inv (State.resetAt origin)

/-- 10_state.md R40, R41 (inferences of the spec) and the canonical form of memory (log entry 9): every Step keeps
them, from any state that meets them. -/
def Obligations.StepKeepsInv : Prop := ∀ s t : State, Inv s → step s = .next t → Inv t

/-- 10_state.md R40, R41, 70_reset_and_hazards.md R204: the host's operations keep the invariant. R40 and R41 are
inferences of the spec, memory's canonical form is the model's choice (log entry 9), that Reset leaves the CORE Running
is the spec's decision D7 (log entry 11), and that the host has these operations only is its decision D17 (log entry
17). -/
def Obligations.HostOperationsKeepInv : Prop :=
  ∀ (s t : State) (origin : Word) (bytes : List Nat), Inv s →
    (hostReset origin s = t ∨ hostSetPc origin s = .next t ∨ hostLoad origin bytes s = .next t) → Inv t

/-- 10_state.md R40, an inference of the spec's: in every state reachable from a Reset by Steps, Loads and SetPCs,
whatever the programs loaded, X, Y, SP, D and I hold their reset values. -/
def Obligations.ReachableInertState : Prop :=
  ∀ s : State, Reachable s →
    s.x = 0 ∧ s.y = 0 ∧ s.sp = 0xFD#8 ∧ s.flags.d = false ∧ s.flags.i = false

/-- 10_state.md R41, an inference of the spec's: in every reachable state, B is set exactly when the CORE is
halted. -/
def Obligations.ReachableBreakMirrorsHalt : Prop :=
  ∀ s : State, Reachable s → (s.flags.b = true ↔ s.run = .halted)

/-- The canonical form is canonical: two memories in it that read alike are equal (log entry 9, over 10_state.md
R37). -/
def Obligations.CanonicalMemoryIsUnique : Prop :=
  ∀ m m' : Memory, Memory.wf m = true → Memory.wf m' = true →
    (∀ addr, Memory.readCell m addr = Memory.readCell m' addr) → m = m'

/-- 10_state.md R35: the cycle counter is never decremented, over any number of Steps. The unbounded counter is the
spec's decision D5 (log entry 5), and reading "monotonically increasing" as never decreasing its resolution C5 (log
entry 20). -/
def Obligations.CyclesNeverDecrease : Prop :=
  ∀ (n : Nat) (s t : State), Sys2Proof.core.run n s = .next t → s.cycles ≤ t.cycles
end

