-- ==== Sys2Proof/Laws/Alu.lean ====
section
/-! SUPPORT. What each ALU operation, flag derivation and operand form computes, once. -/

namespace Sys2Proof.Machine

theorem aluAdd_toNat (a b : Byte) (c : Bool) : (aluAdd a b c).toNat = (a.toNat + b.toNat + c.toNat) % 256 := by
  simp [aluAdd]

theorem aluCarry_iff (a b : Byte) (c : Bool) : aluCarry a b c = true ↔ 255 < a.toNat + b.toNat + c.toNat := by
  simp [aluCarry]

/-- The sum's low byte and its carry make the exact 9-bit sum (R114). -/
theorem aluAdd_carry (a b : Byte) (c : Bool) :
    (aluAdd a b c).toNat + 256 * (aluCarry a b c).toNat = a.toNat + b.toNat + c.toNat := by
  have ha := a.isLt
  have hb := b.isLt
  have hc := c.toNat_le
  rw [aluAdd_toNat]
  cases h : aluCarry a b c with
  | true => rw [aluCarry_iff] at h; simp; omega
  | false =>
    have : ¬ 255 < a.toNat + b.toNat + c.toNat := by rw [← aluCarry_iff, h]; simp
    simp; omega

/-- The mask formula, bit by bit (R114). -/
theorem aluOverflow_testBit (a b : Byte) (c : Bool) :
    aluOverflow a b c =
      ((a.toNat.testBit 7 ^^ (aluSum a b c).testBit 7) && (b.toNat.testBit 7 ^^ (aluSum a b c).testBit 7)) := by
  unfold aluOverflow
  rw [← Nat.testBit_xor, ← Nat.testBit_xor, ← Nat.testBit_and]
  generalize (a.toNat ^^^ aluSum a b c) &&& (b.toNat ^^^ aluSum a b c) = x
  rw [show (0x80 : Nat) = 2 ^ 7 from rfl, Nat.and_two_pow]
  cases x.testBit 7 <;> simp

theorem aluCmp_eq_sub (a b : Byte) : aluCmp a b = a - b := by
  apply BitVec.eq_of_toInt_eq
  rw [aluCmp, BitVec.toInt_ofInt, BitVec.toInt_sub, BitVec.toInt_eq_toNat_bmod, BitVec.toInt_eq_toNat_bmod]
  simp [Int.sub_bmod]

theorem aluNoBorrow_iff (a b : Byte) : aluNoBorrow a b = true ↔ b.toNat ≤ a.toNat := by
  simp [aluNoBorrow]

theorem aluInc_eq_add (a : Byte) : aluInc a = a + 1#8 := by
  simp [aluInc, BitVec.ofNat_add]

theorem zeroFlag_iff (out : Byte) : zeroFlag out = true ↔ out = 0#8 := by
  simp [zeroFlag]

theorem negFlag_iff (out : Byte) : negFlag out = true ↔ 128 ≤ out.toNat := by
  revert out; decide

theorem zpAddr_toNat (z : Byte) : (zpAddr z).toNat = z.toNat := by
  have := z.isLt
  simp [zpAddr]; omega

theorem pageOf_toNat (addr : Word) : (pageOf addr).toNat = addr.toNat / 256 := by
  have := addr.isLt
  simp [pageOf, BitVec.extractLsb'_toNat, Nat.shiftRight_eq_div_pow]; omega

/-- The branch target is the exact signed sum, mod 65536 (R12, R111). -/
theorem relTarget_eq_ofInt (d : Byte) (s : State) :
    relTarget d s = BitVec.ofInt 16 (((relBase s).toNat : Int) + d.toInt) := by
  apply BitVec.eq_of_toInt_eq
  simp [relTarget, BitVec.toInt_add, BitVec.toInt_signExtend_of_le, BitVec.toInt_eq_toNat_bmod (x := relBase s)]

theorem relCrosses_iff (d : Byte) (s : State) :
    relCrosses d s = true ↔ (relBase s).toNat / 256 ≠ (relTarget d s).toNat / 256 := by
  simp [relCrosses, ← BitVec.toNat_inj, pageOf_toNat]

end Sys2Proof.Machine
end

