-- ==== Sys2Proof/Laws/State.lean ====
section
/-! SUPPORT. One lemma per field of State (and of Flags) per update, each true by rfl: no later proof unfolds a
record update. -/

namespace Sys2Proof.Machine

@[simp] theorem State.setPc_a (s : State) (w : Word) : (s.setPc w).a = s.a := rfl
@[simp] theorem State.setPc_x (s : State) (w : Word) : (s.setPc w).x = s.x := rfl
@[simp] theorem State.setPc_y (s : State) (w : Word) : (s.setPc w).y = s.y := rfl
@[simp] theorem State.setPc_sp (s : State) (w : Word) : (s.setPc w).sp = s.sp := rfl
@[simp] theorem State.setPc_pc (s : State) (w : Word) : (s.setPc w).pc = w := rfl
@[simp] theorem State.setPc_flags (s : State) (w : Word) : (s.setPc w).flags = s.flags := rfl
@[simp] theorem State.setPc_cycles (s : State) (w : Word) : (s.setPc w).cycles = s.cycles := rfl
@[simp] theorem State.setPc_run (s : State) (w : Word) : (s.setPc w).run = s.run := rfl
@[simp] theorem State.setPc_mem (s : State) (w : Word) : (s.setPc w).mem = s.mem := rfl

@[simp] theorem State.advance_a (s : State) (n : Nat) : (s.advance n).a = s.a := rfl
@[simp] theorem State.advance_x (s : State) (n : Nat) : (s.advance n).x = s.x := rfl
@[simp] theorem State.advance_y (s : State) (n : Nat) : (s.advance n).y = s.y := rfl
@[simp] theorem State.advance_sp (s : State) (n : Nat) : (s.advance n).sp = s.sp := rfl
@[simp] theorem State.advance_pc (s : State) (n : Nat) : (s.advance n).pc = s.pc + BitVec.ofNat 16 n := rfl
@[simp] theorem State.advance_flags (s : State) (n : Nat) : (s.advance n).flags = s.flags := rfl
@[simp] theorem State.advance_cycles (s : State) (n : Nat) : (s.advance n).cycles = s.cycles := rfl
@[simp] theorem State.advance_run (s : State) (n : Nat) : (s.advance n).run = s.run := rfl
@[simp] theorem State.advance_mem (s : State) (n : Nat) : (s.advance n).mem = s.mem := rfl

@[simp] theorem State.setA_a (s : State) (v : Byte) : (s.setA v).a = v := rfl
@[simp] theorem State.setA_x (s : State) (v : Byte) : (s.setA v).x = s.x := rfl
@[simp] theorem State.setA_y (s : State) (v : Byte) : (s.setA v).y = s.y := rfl
@[simp] theorem State.setA_sp (s : State) (v : Byte) : (s.setA v).sp = s.sp := rfl
@[simp] theorem State.setA_pc (s : State) (v : Byte) : (s.setA v).pc = s.pc := rfl
@[simp] theorem State.setA_flags (s : State) (v : Byte) : (s.setA v).flags = s.flags := rfl
@[simp] theorem State.setA_cycles (s : State) (v : Byte) : (s.setA v).cycles = s.cycles := rfl
@[simp] theorem State.setA_run (s : State) (v : Byte) : (s.setA v).run = s.run := rfl
@[simp] theorem State.setA_mem (s : State) (v : Byte) : (s.setA v).mem = s.mem := rfl

@[simp] theorem State.setFlags_a (s : State) (f : Flags) : (s.setFlags f).a = s.a := rfl
@[simp] theorem State.setFlags_x (s : State) (f : Flags) : (s.setFlags f).x = s.x := rfl
@[simp] theorem State.setFlags_y (s : State) (f : Flags) : (s.setFlags f).y = s.y := rfl
@[simp] theorem State.setFlags_sp (s : State) (f : Flags) : (s.setFlags f).sp = s.sp := rfl
@[simp] theorem State.setFlags_pc (s : State) (f : Flags) : (s.setFlags f).pc = s.pc := rfl
@[simp] theorem State.setFlags_flags (s : State) (f : Flags) : (s.setFlags f).flags = f := rfl
@[simp] theorem State.setFlags_cycles (s : State) (f : Flags) : (s.setFlags f).cycles = s.cycles := rfl
@[simp] theorem State.setFlags_run (s : State) (f : Flags) : (s.setFlags f).run = s.run := rfl
@[simp] theorem State.setFlags_mem (s : State) (f : Flags) : (s.setFlags f).mem = s.mem := rfl

@[simp] theorem State.charge_a (s : State) (n : Nat) : (s.charge n).a = s.a := rfl
@[simp] theorem State.charge_x (s : State) (n : Nat) : (s.charge n).x = s.x := rfl
@[simp] theorem State.charge_y (s : State) (n : Nat) : (s.charge n).y = s.y := rfl
@[simp] theorem State.charge_sp (s : State) (n : Nat) : (s.charge n).sp = s.sp := rfl
@[simp] theorem State.charge_pc (s : State) (n : Nat) : (s.charge n).pc = s.pc := rfl
@[simp] theorem State.charge_flags (s : State) (n : Nat) : (s.charge n).flags = s.flags := rfl
@[simp] theorem State.charge_cycles (s : State) (n : Nat) : (s.charge n).cycles = s.cycles + n := rfl
@[simp] theorem State.charge_run (s : State) (n : Nat) : (s.charge n).run = s.run := rfl
@[simp] theorem State.charge_mem (s : State) (n : Nat) : (s.charge n).mem = s.mem := rfl

@[simp] theorem State.halt_a (s : State) : (s.halt).a = s.a := rfl
@[simp] theorem State.halt_x (s : State) : (s.halt).x = s.x := rfl
@[simp] theorem State.halt_y (s : State) : (s.halt).y = s.y := rfl
@[simp] theorem State.halt_sp (s : State) : (s.halt).sp = s.sp := rfl
@[simp] theorem State.halt_pc (s : State) : (s.halt).pc = s.pc := rfl
@[simp] theorem State.halt_flags (s : State) : (s.halt).flags = s.flags := rfl
@[simp] theorem State.halt_cycles (s : State) : (s.halt).cycles = s.cycles := rfl
@[simp] theorem State.halt_run (s : State) : (s.halt).run = .halted := rfl
@[simp] theorem State.halt_mem (s : State) : (s.halt).mem = s.mem := rfl

@[simp] theorem State.writeMem_a (s : State) (w : Word) (v : Byte) : (s.writeMem w v).a = s.a := rfl
@[simp] theorem State.writeMem_x (s : State) (w : Word) (v : Byte) : (s.writeMem w v).x = s.x := rfl
@[simp] theorem State.writeMem_y (s : State) (w : Word) (v : Byte) : (s.writeMem w v).y = s.y := rfl
@[simp] theorem State.writeMem_sp (s : State) (w : Word) (v : Byte) : (s.writeMem w v).sp = s.sp := rfl
@[simp] theorem State.writeMem_pc (s : State) (w : Word) (v : Byte) : (s.writeMem w v).pc = s.pc := rfl
@[simp] theorem State.writeMem_flags (s : State) (w : Word) (v : Byte) : (s.writeMem w v).flags = s.flags := rfl
@[simp] theorem State.writeMem_cycles (s : State) (w : Word) (v : Byte) : (s.writeMem w v).cycles = s.cycles := rfl
@[simp] theorem State.writeMem_run (s : State) (w : Word) (v : Byte) : (s.writeMem w v).run = s.run := rfl
@[simp] theorem State.writeMem_mem (s : State) (w : Word) (v : Byte) : (s.writeMem w v).mem = Memory.writeCell s.mem w.toNat v := rfl

@[simp] theorem State.loadA_a (s : State) (v : Byte) : (s.loadA v).a = v := rfl
@[simp] theorem State.loadA_x (s : State) (v : Byte) : (s.loadA v).x = s.x := rfl
@[simp] theorem State.loadA_y (s : State) (v : Byte) : (s.loadA v).y = s.y := rfl
@[simp] theorem State.loadA_sp (s : State) (v : Byte) : (s.loadA v).sp = s.sp := rfl
@[simp] theorem State.loadA_pc (s : State) (v : Byte) : (s.loadA v).pc = s.pc := rfl
@[simp] theorem State.loadA_flags (s : State) (v : Byte) : (s.loadA v).flags = s.flags.setZN v := rfl
@[simp] theorem State.loadA_cycles (s : State) (v : Byte) : (s.loadA v).cycles = s.cycles := rfl
@[simp] theorem State.loadA_run (s : State) (v : Byte) : (s.loadA v).run = s.run := rfl
@[simp] theorem State.loadA_mem (s : State) (v : Byte) : (s.loadA v).mem = s.mem := rfl

@[simp] theorem Flags.setZN_n (f : Flags) (out : Byte) : (f.setZN out).n = negFlag out := rfl
@[simp] theorem Flags.setZN_v (f : Flags) (out : Byte) : (f.setZN out).v = f.v := rfl
@[simp] theorem Flags.setZN_b (f : Flags) (out : Byte) : (f.setZN out).b = f.b := rfl
@[simp] theorem Flags.setZN_d (f : Flags) (out : Byte) : (f.setZN out).d = f.d := rfl
@[simp] theorem Flags.setZN_i (f : Flags) (out : Byte) : (f.setZN out).i = f.i := rfl
@[simp] theorem Flags.setZN_z (f : Flags) (out : Byte) : (f.setZN out).z = zeroFlag out := rfl
@[simp] theorem Flags.setZN_c (f : Flags) (out : Byte) : (f.setZN out).c = f.c := rfl

@[simp] theorem Flags.afterAdc_n (f : Flags) (a m : Byte) : (f.afterAdc a m).n = negFlag (aluAdd a m f.c) := rfl
@[simp] theorem Flags.afterAdc_v (f : Flags) (a m : Byte) : (f.afterAdc a m).v = adcV f a m := rfl
@[simp] theorem Flags.afterAdc_b (f : Flags) (a m : Byte) : (f.afterAdc a m).b = f.b := rfl
@[simp] theorem Flags.afterAdc_d (f : Flags) (a m : Byte) : (f.afterAdc a m).d = f.d := rfl
@[simp] theorem Flags.afterAdc_i (f : Flags) (a m : Byte) : (f.afterAdc a m).i = f.i := rfl
@[simp] theorem Flags.afterAdc_z (f : Flags) (a m : Byte) : (f.afterAdc a m).z = zeroFlag (aluAdd a m f.c) := rfl
@[simp] theorem Flags.afterAdc_c (f : Flags) (a m : Byte) : (f.afterAdc a m).c = aluCarry a m f.c := rfl

@[simp] theorem Flags.afterCmp_n (f : Flags) (a m : Byte) : (f.afterCmp a m).n = negFlag (aluCmp a m) := rfl
@[simp] theorem Flags.afterCmp_v (f : Flags) (a m : Byte) : (f.afterCmp a m).v = f.v := rfl
@[simp] theorem Flags.afterCmp_b (f : Flags) (a m : Byte) : (f.afterCmp a m).b = f.b := rfl
@[simp] theorem Flags.afterCmp_d (f : Flags) (a m : Byte) : (f.afterCmp a m).d = f.d := rfl
@[simp] theorem Flags.afterCmp_i (f : Flags) (a m : Byte) : (f.afterCmp a m).i = f.i := rfl
@[simp] theorem Flags.afterCmp_z (f : Flags) (a m : Byte) : (f.afterCmp a m).z = zeroFlag (aluCmp a m) := rfl
@[simp] theorem Flags.afterCmp_c (f : Flags) (a m : Byte) : (f.afterCmp a m).c = aluNoBorrow a m := rfl

@[simp] theorem Flags.setBreak_n (f : Flags) : (f.setBreak).n = f.n := rfl
@[simp] theorem Flags.setBreak_v (f : Flags) : (f.setBreak).v = f.v := rfl
@[simp] theorem Flags.setBreak_b (f : Flags) : (f.setBreak).b = true := rfl
@[simp] theorem Flags.setBreak_d (f : Flags) : (f.setBreak).d = f.d := rfl
@[simp] theorem Flags.setBreak_i (f : Flags) : (f.setBreak).i = f.i := rfl
@[simp] theorem Flags.setBreak_z (f : Flags) : (f.setBreak).z = f.z := rfl
@[simp] theorem Flags.setBreak_c (f : Flags) : (f.setBreak).c = f.c := rfl

/-! Reads see memory only: every update but a store leaves them alone. -/

@[simp] theorem State.readMem_setPc (s : State) (w : Word) (addr : Word) : (s.setPc w).readMem addr = s.readMem addr := rfl
@[simp] theorem State.readMem_advance (s : State) (n : Nat) (addr : Word) : (s.advance n).readMem addr = s.readMem addr := rfl
@[simp] theorem State.readMem_setA (s : State) (v : Byte) (addr : Word) : (s.setA v).readMem addr = s.readMem addr := rfl
@[simp] theorem State.readMem_setFlags (s : State) (f : Flags) (addr : Word) : (s.setFlags f).readMem addr = s.readMem addr := rfl
@[simp] theorem State.readMem_charge (s : State) (n : Nat) (addr : Word) : (s.charge n).readMem addr = s.readMem addr := rfl
@[simp] theorem State.readMem_halt (s : State) (addr : Word) : (s.halt).readMem addr = s.readMem addr := rfl
@[simp] theorem State.readMem_loadA (s : State) (v : Byte) (addr : Word) : (s.loadA v).readMem addr = s.readMem addr := rfl

/-- V after an ADC is the computed overflow: the value the spec takes for `ADC_V` (R6, log entry 4). -/
theorem adcV_eq (f : Flags) (a m : Byte) : adcV f a m = aluOverflow a m f.c := rfl

end Sys2Proof.Machine
end

