-- ==== Sys2Proof/Laws/Memory.lean ====
section
/-! SUPPORT. What reading and writing memory can do: read after write, the canonical form is kept, and what the
host's accessors and Load change. -/

namespace Sys2Proof.Machine

theorem Memory.readCell_insertCell (m : Memory) (k j : Nat) (v : Byte) :
    Memory.readCell (Memory.insertCell m k v) j = if j = k then v else Memory.readCell m j := by
  induction m with
  | nil => simp [Memory.insertCell, Memory.readCell]
  | cons c rest ih =>
    obtain ⟨key, byte⟩ := c
    simp only [Memory.insertCell]
    split
    · simp [Memory.readCell]
    · split
      · subst k
        by_cases hj : j = key <;> simp [Memory.readCell, hj]
      · simp only [Memory.readCell, ih]
        split <;> split <;> simp_all

theorem Memory.readCell_eraseCell (m : Memory) (k j : Nat) :
    Memory.readCell (Memory.eraseCell m k) j = if j = k then Memory.unlisted else Memory.readCell m j := by
  induction m with
  | nil => simp [Memory.eraseCell, Memory.readCell]
  | cons c rest ih =>
    obtain ⟨key, byte⟩ := c
    simp only [Memory.eraseCell]
    split
    · subst k
      by_cases hj : j = key <;> simp_all [Memory.readCell]
    · simp only [Memory.readCell, ih]
      split <;> split <;> simp_all

/-- A write sets its cell and leaves every other cell alone, in any memory (R52). -/
theorem Memory.readCell_writeCell (m : Memory) (k j : Nat) (v : Byte) :
    Memory.readCell (Memory.writeCell m k v) j = if j = k then v else Memory.readCell m j := by
  unfold Memory.writeCell
  split
  · rw [Memory.readCell_eraseCell]; simp_all
  · exact Memory.readCell_insertCell m k j v

theorem Memory.wfFrom_mono (m : Memory) (low low' : Nat) (h : low' ≤ low) (hm : Memory.wfFrom low m = true) :
    Memory.wfFrom low' m = true := by
  cases m with
  | nil => rfl
  | cons c rest =>
    simp only [Memory.wfFrom, Bool.and_eq_true, decide_eq_true_eq] at hm ⊢
    exact ⟨⟨⟨le_trans h hm.1.1.1, hm.1.1.2⟩, hm.1.2⟩, hm.2⟩

theorem Memory.wfFrom_insertCell (m : Memory) (low k : Nat) (v : Byte) (hm : Memory.wfFrom low m = true)
    (hk : low ≤ k) (hk' : k < Config.memorySize) (hv : v ≠ Memory.unlisted) :
    Memory.wfFrom low (Memory.insertCell m k v) = true := by
  induction m generalizing low with
  | nil => simp [Memory.insertCell, Memory.wfFrom, hk, hk', hv]
  | cons c rest ih =>
    obtain ⟨key, byte⟩ := c
    simp only [Memory.wfFrom, Bool.and_eq_true, decide_eq_true_eq, bne_iff_ne] at hm
    simp only [Memory.insertCell]
    split
    · simp [Memory.wfFrom, hk, hk', hv, hm]; omega
    · split
      · subst k; simp [Memory.wfFrom, hk, hk', hv, hm]
      · have := ih (key + 1) hm.2 (by omega)
        simp [Memory.wfFrom, hm, this]

theorem Memory.wfFrom_eraseCell (m : Memory) (low k : Nat) (hm : Memory.wfFrom low m = true) :
    Memory.wfFrom low (Memory.eraseCell m k) = true := by
  induction m generalizing low with
  | nil => rfl
  | cons c rest ih =>
    obtain ⟨key, byte⟩ := c
    simp only [Memory.wfFrom, Bool.and_eq_true, decide_eq_true_eq, bne_iff_ne] at hm
    simp only [Memory.eraseCell]
    have hr := ih (key + 1) hm.2
    split
    · exact Memory.wfFrom_mono _ _ _ (by omega) hr
    · simp [Memory.wfFrom, hm, hr]

/-- A write keeps the canonical form. -/
theorem Memory.wf_writeCell (m : Memory) (k : Nat) (v : Byte) (hm : Memory.wf m = true)
    (hk : k < Config.memorySize) : Memory.wf (Memory.writeCell m k v) = true := by
  unfold Memory.writeCell
  split
  · exact Memory.wfFrom_eraseCell m 0 k hm
  · exact Memory.wfFrom_insertCell m 0 k v hm (Nat.zero_le _) hk ‹_›

/-- What `MemWrite` does to every later read (R52). -/
theorem State.readMem_writeMem (s : State) (w addr : Word) (v : Byte) :
    (s.writeMem w v).readMem addr = if addr = w then v else s.readMem addr := by
  simp [State.readMem, Memory.readCell_writeCell, BitVec.toNat_inj]

theorem State.wf_writeMem (s : State) (w : Word) (v : Byte) (h : Memory.wf s.mem = true) :
    Memory.wf (s.writeMem w v).mem = true :=
  Memory.wf_writeCell _ _ _ h (by simpa [Config.memorySize] using w.isLt)

/-- Reads see memory only. -/
theorem State.readMem_congr (s t : State) (h : t.mem = s.mem) (addr : Word) : t.readMem addr = s.readMem addr := by
  simp [State.readMem, h]

/-- All that the accessor `write` can do when it succeeds. -/
theorem busWrite_ok (addr v : Nat) (s t : State) (h : busWrite addr v s = .ok t) :
    addr < Config.memorySize ∧ t = s.writeMem (BitVec.ofNat 16 addr) (BitVec.ofNat 8 v) := by
  unfold busWrite at h
  split at h
  · exact ⟨‹_›, by injection h with h; exact h.symm⟩
  · cases h

/-- All that the writes of a Load can do: only memory changes, and its canonical form is kept. -/
theorem loadBytes_ok (addr : Nat) (bytes : List Nat) (s t : State) (h : loadBytes addr bytes s = .ok t) :
    t = { s with mem := t.mem } ∧ (Memory.wf s.mem = true → Memory.wf t.mem = true) := by
  induction bytes generalizing addr s with
  | nil =>
    simp only [loadBytes, Except.ok.injEq] at h
    exact h ▸ ⟨rfl, id⟩
  | cons v rest ih =>
    simp only [loadBytes] at h
    split at h
    · rename_i u hu
      obtain ⟨-, rfl⟩ := busWrite_ok _ _ _ _ hu
      obtain ⟨h1, h2⟩ := ih _ _ h
      exact ⟨h1, fun hs => h2 (State.wf_writeMem _ _ _ hs)⟩
    · cases h

end Sys2Proof.Machine
end

