-- ==== Sys2Proof/Laws/PerInstr.lean ====
section
/-! SUPPORT. Statements for all instructions, one lemma per constructor. -/

namespace Sys2Proof.Laws.EncodeLength

/-- An instruction's bytes begin with an opcode of the table, and there are as many as the table's mode for
that opcode asks for (30_encoding.md R80, R85). -/
def Statement (i : Instr) : Prop :=
  ∃ opcode rest, encode i = opcode :: rest ∧ opcodeLength opcode = some (rest.length + 1)

theorem brk : Statement .brk := ⟨_, _, rfl, rfl⟩
theorem adcImm (m : Byte) : Statement (.adcImm m) := ⟨_, _, rfl, rfl⟩
theorem staZp (z : Byte) : Statement (.staZp z) := ⟨_, _, rfl, rfl⟩
theorem bccRel (d : Byte) : Statement (.bccRel d) := ⟨_, _, rfl, rfl⟩
theorem ldaZp (z : Byte) : Statement (.ldaZp z) := ⟨_, _, rfl, rfl⟩
theorem ldaImm (m : Byte) : Statement (.ldaImm m) := ⟨_, _, rfl, rfl⟩
theorem cmpImm (m : Byte) : Statement (.cmpImm m) := ⟨_, _, rfl, rfl⟩
theorem incZp (z : Byte) : Statement (.incZp z) := ⟨_, _, rfl, rfl⟩
theorem nop : Statement .nop := ⟨_, _, rfl, rfl⟩

end Sys2Proof.Laws.EncodeLength
end

