-- ==== Sys2Proof/Laws/Step.lean ====
section
/-! SUPPORT. Fetch, decode and step: one lemma that says what each can do. -/

namespace Sys2Proof

/-- The decoder on a list with an opcode byte, by the table's entry. -/
theorem decode_cons (op : Byte) (rest : List Byte) :
    decode (op :: rest) =
      match decoderEntry op with
      | none => .error (.unimplementedOpcode op)
      | some e =>
        if e.mode = .none then .ok (e.make 0, rest)
        else match rest with
          | [] => .error (.missingOperand op)
          | m :: rest' => .ok (e.make m, rest') := rfl

/-- The only entries are the nine of R84. -/
theorem decoderEntry_mem (op : Byte) (e : Entry) (h : decoderEntry op = some e) : e ∈ decoderTable ∧ e.opcode = op :=
  ⟨List.mem_of_find?_eq_some h, by simpa using List.find?_some h⟩

namespace Machine

/-- What fetching answers, by the entry of the byte at PC (R101). -/
theorem fetchInstr_eq (s : State) :
    fetchInstr s =
      match decoderEntry (s.readMem s.pc) with
      | none => .error (.unimplementedOpcode (s.readMem s.pc))
      | some e => .ok (e.make (if e.mode = .none then 0 else s.readMem (s.pc + 1#16))) := by
  unfold fetchInstr fetchBytes opcodeLength
  simp only [State.fetchNext]
  cases h : decoderEntry (s.readMem s.pc) with
  | none => simp [decode_cons, h]
  | some e =>
    rcases hm : e.mode with _ | _ | _ | _ <;>
      simp [Mode.length, decode_cons, h, hm]

/-- The first byte fetched is the one at PC (R53). -/
theorem fetchBytes_opcode (s : State) : (fetchBytes s)[0]? = some (s.readMem s.pc) := by
  unfold fetchBytes
  simp only [State.fetchNext]
  split <;> rfl

/-- Where the opcode has an operand byte, the second byte fetched is the one after it (R53, R80). -/
theorem fetchBytes_operand (s : State) (h : opcodeLength (s.readMem s.pc) = some 2) :
    (fetchBytes s)[1]? = some (s.readMem (s.pc + 1#16)) := by
  unfold fetchBytes
  simp only [State.fetchNext, h]
  rfl

/-- All that a step answering a next state can have done: stay halted, or run the instruction fetched. -/
theorem step_next (s t : State) (h : step s = .next t) :
    (s.run = .halted ∧ t = s) ∨ (s.run = .running ∧ ∃ i, fetchInstr s = .ok i ∧ exec i s = .next t) := by
  unfold step at h
  split at h
  · next hr => exact .inl ⟨hr, by injection h with h; exact h.symm⟩
  · next hr =>
    split at h
    · next i hi => exact .inr ⟨hr, i, hi, h⟩
    · cases h

/-- All that a Load answering a next state can have done. -/
theorem hostLoad_next (origin : Word) (bytes : List Nat) (s t : State) (h : hostLoad origin bytes s = .next t) :
    loadFits origin bytes = true ∧ loadBytes origin.toNat bytes s = .ok t := by
  unfold hostLoad at h
  split at h
  · refine ⟨‹_›, ?_⟩
    split at h
    · next hu => injection h with h; exact h ▸ hu
    · cases h
  · cases h

/-- All that a SetPC answering a next state can have done. -/
theorem hostSetPc_next (origin : Word) (s t : State) (h : hostSetPc origin s = .next t) :
    s.run = .running ∧ t = s.setPc origin := by
  unfold hostSetPc at h
  split at h
  · exact ⟨‹_›, by injection h with h; exact h.symm⟩
  · cases h

end Machine

end Sys2Proof
end

