-- ==== Sys2Proof/Tests/Slice0.lean ====
section
/-! SUPPORT. The model's own tests. Expected results come from 95_test_vectors.md (the vector is named) or are read off
30_encoding.md R84; the witnesses show states that meet the statements' hypotheses. -/

namespace Sys2Proof.Tests

open Sys2Proof.Machine Sys2Proof.Safety

/-- The next state of an outcome, to look at its fields. -/
def nextOf : Host.Outcome State Fault Refusal → Option State
  | .next s => some s
  | _ => none

/-- The fault of an outcome. -/
def faultOf : Host.Outcome State Fault Refusal → Option Fault
  | .fault f => some f
  | _ => none

/-- The refusal of an outcome. -/
def refusalOf : Host.Outcome State Fault Refusal → Option Refusal
  | .refused r => some r
  | _ => none

/-- The state after Reset with bytes placed at an address and PC there. -/
def placed (pc : Word) (bytes : List Byte) : State := { placeBytes pc bytes State.reset with pc := pc }

/-- The same, with A and C set (a start state of a vector for the Step function). -/
def withAC (a : Byte) (c : Bool) (s : State) : State := { s with a := a, flags := { s.flags with c := c } }

/-- A halted state, as a BRK at 0x0000 leaves it (BRK-1). -/
def halted : State := { State.reset with pc := 0x0001#16, run := .halted, flags := { Flags.clear with b := true } }

/-! ## Decoding: each constructor's word written out from the binary column of R84 (DEC-1) -/

theorem test_decode_brk : decodeTableWord 8 0b00000000 = some .brk := by decide
theorem test_decode_adc : decodeTableWord 16 0b1000000101101001 = some (.adcImm 0x81#8) := by decide
theorem test_decode_sta : decodeTableWord 16 0b0010000010000101 = some (.staZp 0x20#8) := by decide
theorem test_decode_bcc : decodeTableWord 16 0b1111011010010000 = some (.bccRel 0xF6#8) := by decide
theorem test_decode_lda_zp : decodeTableWord 16 0b1111111110100101 = some (.ldaZp 0xFF#8) := by decide
theorem test_decode_lda_imm : decodeTableWord 16 0b0000001010101001 = some (.ldaImm 0x02#8) := by decide
theorem test_decode_cmp : decodeTableWord 16 0b0000101011001001 = some (.cmpImm 0x0A#8) := by decide
theorem test_decode_inc : decodeTableWord 16 0b1111111111100110 = some (.incZp 0xFF#8) := by decide
theorem test_decode_nop : decodeTableWord 8 0b11101010 = some .nop := by decide

/-- DEC-2: exactly 9 of the 256 opcode bytes are accepted. -/
theorem test_decode_count : ((List.range 256).filter fun w => (decodeTableWord 8 w).isSome).length = 9 := by decide

/-- ILL-4: the near misses are refused. -/
theorem test_decode_near_misses :
    ([0x01, 0x68, 0x6D, 0x65, 0x84, 0x86, 0x8D, 0x91, 0xB0, 0xA4, 0xA6, 0xAD, 0xA1, 0xA8, 0xC5, 0xC8, 0xE5, 0xE7, 0xE8,
      0xEB, 0x80].all fun w => (decodeTableWord 8 w).isNone) = true := by decide

/-- An opcode byte whose operand byte is missing, and no byte at all, are refused by name (R82). -/
theorem test_decode_missing : decode [0xA9#8] = .error (.missingOperand 0xA9#8) ∧ decode [] = .error .noByte :=
  ⟨rfl, rfl⟩

/-- The rows' words run as the first instruction after Reset: LDA #0 sets Z, an illegal byte faults. -/
theorem test_withFetchWord :
    ((nextOf (step (State.reset.withFetchWord 8 0xA9))).map fun t => (t.flags.z, t.pc, t.cycles)) =
        some (true, 0x0002#16, 2) ∧
      faultOf (step (State.reset.withFetchWord 8 0xAA)) = some (.unimplementedOpcode 0xAA#8) := by decide

/-! ## Well-formedness -/

/-- R88: the extreme operand bytes are well formed in every format. -/
theorem test_wellFormed_operands :
    ([.ldaImm 0xFF#8, .ldaZp 0x00#8, .bccRel 0x80#8, .brk].all Instr.wellFormed) = true := by decide

/-- LD-2 is admitted and LD-3 is refused: the one check there is on a Load. -/
theorem test_loadFits : loadFits 0xFFFE#16 [0xEA, 0x00] = true ∧ loadFits 0xFFFF#16 [0xEA, 0x00] = false := by decide

/-! ## The instructions, one step each -/

/-- LDA-3. -/
theorem test_lda_imm_sign :
    ((nextOf (step (placed 0#16 [0xA9#8, 0x80#8]))).map fun t => (t.a, t.flags.z, t.flags.n, t.cycles)) =
      some (0x80#8, false, true, 2) := by decide

/-- LDA-6: the operand byte is read past the top of the address space. -/
theorem test_lda_imm_pc_wrap :
    ((nextOf (step (placed 0xFFFF#16 [0xA9#8, 0x33#8]))).map fun t => (t.a, t.pc)) = some (0x33#8, 0x0001#16) := by decide

/-- LDA-10: the instruction reads its own opcode byte. -/
theorem test_lda_zp_own_opcode :
    ((nextOf (step (placed 0x0010#16 [0xA5#8, 0x10#8]))).map fun t => (t.a, t.flags.n, t.cycles)) =
      some (0xA5#8, true, 3) := by decide

/-- LDA-9: the last zero-page cell is 0x00FF. -/
theorem test_lda_zp_last_cell :
    ((nextOf (step ((placed 0#16 [0xA5#8, 0xFF#8]).writeMem 0x00FF#16 0x0A#8))).map fun t => (t.a, t.flags.z)) =
      some (0x0A#8, false) := by decide

/-- STA-4: the store overwrites its own opcode after executing. -/
theorem test_sta_own_opcode :
    ((nextOf (step (withAC 0xEA#8 false (placed 0x0020#16 [0x85#8, 0x20#8])))).map fun t =>
      (t.readMem 0x0020#16, t.readMem 0x0021#16, t.pc, t.cycles)) =
      some (0xEA#8, 0x20#8, 0x0022#16, 3) := by decide

/-- STA-2: storing zero sets no flag. -/
theorem test_sta_zero :
    ((nextOf (step ((placed 0#16 [0x85#8, 0x20#8]).writeMem 0x0020#16 0x77#8))).map fun t =>
      (t.readMem 0x0020#16, t.flags.z)) = some (0x00#8, false) := by decide

/-- ADC-7. -/
theorem test_adc_negative_overflow :
    ((nextOf (step (withAC 0x80#8 false (placed 0#16 [0x69#8, 0x80#8])))).map fun t =>
      (t.a, t.flags.c, t.flags.z, t.flags.n, t.flags.v)) = some (0x00#8, true, true, false, true) := by decide

/-- ADC-10. -/
theorem test_adc_carry_in_no_overflow :
    ((nextOf (step (withAC 0x80#8 true (placed 0#16 [0x69#8, 0xFF#8])))).map fun t =>
      (t.a, t.flags.c, t.flags.z, t.flags.n, t.flags.v)) = some (0x80#8, true, false, true, false) := by decide

/-- CMP-5: below, with N clear. -/
theorem test_cmp_below_n_clear :
    ((nextOf (step (withAC 0x00#8 true (placed 0#16 [0xC9#8, 0x81#8])))).map fun t =>
      (t.a, t.flags.c, t.flags.z, t.flags.n)) = some (0x00#8, false, false, false) := by decide

/-- CMP-3: equal. -/
theorem test_cmp_equal :
    ((nextOf (step (withAC 0xFF#8 false (placed 0#16 [0xC9#8, 0xFF#8])))).map fun t =>
      (t.flags.c, t.flags.z, t.flags.n)) = some (true, true, false) := by decide

/-- INC-8: the wrap leaves C. -/
theorem test_inc_wrap :
    ((nextOf (step (withAC 0#8 true ((placed 0#16 [0xE6#8, 0x30#8]).writeMem 0x0030#16 0xFF#8)))).map fun t =>
      (t.readMem 0x0030#16, t.flags.z, t.flags.c, t.cycles)) = some (0x00#8, true, true, 5) := by decide

/-- INC-9, first step: the instruction's own operand byte. -/
theorem test_inc_own_operand :
    ((nextOf (step (placed 0#16 [0xE6#8, 0x01#8]))).map fun t => (t.readMem 0x0001#16, t.pc)) =
      some (0x02#8, 0x0002#16) := by decide

/-- BCC-7: the opcode lies in the page before, no crossing is charged. -/
theorem test_bcc_opcode_in_previous_page :
    ((nextOf (step (placed 0x00FE#16 [0x90#8, 0x05#8]))).map fun t => (t.pc, t.cycles)) = some (0x0105#16, 3) := by decide

/-- BCC-8: backward through zero, another page. -/
theorem test_bcc_backward_through_zero :
    ((nextOf (step (placed 0#16 [0x90#8, 0xFC#8]))).map fun t => (t.pc, t.cycles)) = some (0xFFFE#16, 4) := by decide

/-- BRK-2: the flags, A and SP are kept, PC moves by one, no cycle is added. -/
theorem test_brk_keeps :
    ((nextOf (step { placed 0x0300#16 [0x00#8] with
        a := 0x7F#8, cycles := 40, flags := { Flags.clear with n := true, v := true, c := true } })).map fun t =>
      (t.run, t.pc, t.cycles, t.a, t.sp, t.flags)) =
      some (.halted, 0x0301#16, 40, 0x7F#8, 0xFD#8, { Flags.clear with n := true, v := true, c := true, b := true }) := by
  decide

/-- BRK-3: PC wraps. -/
theorem test_brk_wrap : ((nextOf (step (placed 0xFFFF#16 [0x00#8]))).map fun t => (t.pc, t.flags.b)) =
    some (0x0000#16, true) := by decide

/-- NOP-1. -/
theorem test_nop : nextOf (step (placed 0#16 [0xEA#8])) =
    some { placed 0#16 [0xEA#8] with pc := 0x0001#16, cycles := 2 } := by decide

/-- NOP-2: PC wraps. -/
theorem test_nop_wrap : ((nextOf (step (placed 0xFFFF#16 [0xEA#8]))).map fun t => (t.pc, t.cycles)) =
    some (0x0000#16, 2) := by decide

/-- ILL-5: an illegal value as an operand byte is data. -/
theorem test_illegal_as_operand :
    ((nextOf (step (placed 0#16 [0xA9#8, 0xAA#8]))).map fun t => (t.a, t.flags.n)) = some (0xAA#8, true) := by decide

/-! ## The host's operations -/

/-- RST-2: Reset leaves Halted. -/
theorem test_reset_from_halted : hostReset 0x0600#16 halted = { State.reset with pc := 0x0600#16 } := by decide

/-- LD-1: bytes at 0x0200, nothing else. -/
theorem test_load :
    nextOf (hostLoad 0x0200#16 [0xA9, 0x02, 0xEA] State.reset) =
      some { State.reset with mem := [(0x0200, 0xA9#8), (0x0201, 0x02#8), (0x0202, 0xEA#8)] } := by decide

/-- The write cuts to 8 bits (R52, R203). -/
theorem test_load_truncates :
    ((nextOf (hostLoad 0#16 [0x1A9] State.reset)).map fun t => t.readMem 0#16) = some 0xA9#8 := by decide

/-- PC-1. -/
theorem test_setPc : nextOf (hostSetPc 0x0200#16 State.reset) = some { State.reset with pc := 0x0200#16 } := by decide

/-! ## Witnesses: states and operands that meet the statements' hypotheses -/

/-- FirstStepAfterResetIsBrk. -/
theorem witness_FirstStepAfterResetIsBrk : ∃ t, hostLoad 0#16 [0xA9, 0x02] halted = .next t := ⟨_, rfl⟩

/-- SetPcResult, HaltedStaysAsItIs: both run states. -/
theorem witness_SetPcResult : State.reset.run = .running ∧ halted.run = .halted := ⟨rfl, rfl⟩

/-- HaltedStaysAsItIs (BRK-4). -/
theorem witness_HaltedStaysAsItIs : halted.run = .halted ∧ nextOf (step halted) = some halted ∧ executeOne halted = none := by
  decide

/-- LoadResult: the last byte that fits (LD-2), the first that does not (LD-3), and a cell on either side. -/
theorem witness_LoadResult :
    (0xFFFE#16).toNat + [0xEA, 0x00].length ≤ 65536 ∧ 65536 < (0xFFFF#16).toNat + [0xEA, 0x00].length ∧
      [0xEA, 0x00][1]? = some 0x00 ∧ (0xFFFD#16).toNat < (0xFFFE#16).toNat ∧
      refusalOf (hostLoad 0xFFFF#16 [0xEA, 0x00] State.reset) = some (.loadPastTop 65535 2) := by decide

/-- RunLoopOutcomes: each way a Run ends (P7's program does not end). -/
theorem witness_RunLoopOutcomes :
    runLoop 1 State.reset = .halted halted ∧
      runLoop 1 (placed 0#16 [0xAA#8]) = .faulted (.unimplementedOpcode 0xAA#8) (placed 0#16 [0xAA#8]) ∧
      runLoop 0 State.reset = .outOfBudget State.reset := by decide

/-- RunRepeatsStep: a step to a Running state, one to a halted state, one that faults, and a halted start. -/
theorem witness_RunRepeatsStep :
    (placed 0#16 [0xEA#8]).run = .running ∧
      ((nextOf (step (placed 0#16 [0xEA#8]))).map fun t => t.run) = some .running ∧
      ((nextOf (step State.reset)).map fun t => t.run) = some .halted ∧
      (faultOf (step (placed 0#16 [0xAA#8]))).isSome = true ∧ halted.run = .halted := by decide

/-- UnboundedRunIsDetermined. -/
theorem witness_UnboundedRunIsDetermined : hostRunUnbounded 0#16 State.reset (.halted halted) :=
  ⟨⟨1, rfl⟩, fun _ h => nomatch h⟩

/-- LdaImmediateResult to NopResult have no hypothesis; BccResult's three clauses (BCC-15, BCC-13, BCC-6). -/
theorem witness_BccResult :
    (nextOf (exec (.bccRel 0x02#8) (withAC 0#8 true { State.reset with pc := 0x00FD#16 }))).map
        (fun t => (t.pc, t.cycles)) = some (0x00FF#16, 2) ∧
      (nextOf (exec (.bccRel 0x7F#8) { State.reset with pc := 0x017E#16 })).map
        (fun t => (t.pc, t.cycles)) = some (0x01FF#16, 3) ∧
      (nextOf (exec (.bccRel 0x02#8) { State.reset with pc := 0x00FD#16 })).map
        (fun t => (t.pc, t.cycles)) = some (0x0101#16, 4) := by decide

/-- LoadFlagLaw: both forms of LDA, at 0x00 and 0x80 (LDA-1, LDA-7). -/
theorem witness_LoadFlagLaw :
    (Instr.ldaImm 0x00#8 = .ldaImm 0x00#8) ∧
      ∃ z, Instr.ldaZp 0x10#8 = .ldaZp z ∧ (State.reset.writeMem 0x0010#16 0x80#8).readMem (z.setWidth 16) = 0x80#8 :=
  ⟨rfl, 0x10#8, rfl, by decide⟩

/-- AdcCarryLaw: the greatest sum (ADC-5). -/
theorem witness_AdcCarryLaw :
    (withAC 0xFF#8 true State.reset).a = 0xFF#8 ∧ (withAC 0xFF#8 true State.reset).flags.c = true ∧
      (nextOf (exec (.adcImm 0xFF#8) (withAC 0xFF#8 true State.reset))).map (fun t => (t.a, t.flags.c)) =
        some (0xFF#8, true) := by decide

/-- DecodeOfEncode, EncodeOfDecode, DecodeConsumesTheOpcodesLength: a one-byte and a two-byte instruction. -/
theorem witness_DecodeOfEncode :
    (Instr.brk).wellFormed = true ∧ decode [0x00#8, 0x01#8] = .ok (.brk, [0x01#8]) ∧
      (Instr.staZp 0xFF#8).wellFormed = true ∧ decode [0x85#8, 0xFF#8, 0x01#8] = .ok (.staZp 0xFF#8, [0x01#8]) :=
  ⟨rfl, rfl, rfl, rfl⟩

/-- DecoderAcceptsExactlyTheNine: the bytes next to NOP's. -/
theorem witness_DecoderAcceptsExactlyTheNine :
    0xEA#8 ∈ implementedOpcodes ∧ 0xEB#8 ∉ implementedOpcodes ∧ 0xE9#8 ∉ implementedOpcodes := by decide

/-- StepRunsTheDecodedInstruction. -/
theorem witness_StepRunsTheDecodedInstruction :
    (placed 0xFFFF#16 [0xA9#8, 0x33#8]).run = .running ∧
      decode [(placed 0xFFFF#16 [0xA9#8, 0x33#8]).readMem 0xFFFF#16, (placed 0xFFFF#16 [0xA9#8, 0x33#8]).readMem 0#16] =
        .ok (.ldaImm 0x33#8, []) ∧ (Instr.ldaImm 0x33#8).wellFormed = true :=
  ⟨rfl, rfl, rfl⟩

/-- IllegalOpcodeFaults, NoInstructionFaults' fault clause (ILL-1, ILL-3). -/
theorem witness_IllegalOpcodeFaults :
    (placed 0#16 [0xAA#8]).run = .running ∧ (placed 0#16 [0xAA#8]).readMem (placed 0#16 [0xAA#8]).pc ∉ implementedOpcodes ∧
      faultOf (step (placed 0#16 [0xAA#8])) = some (.unimplementedOpcode 0xAA#8) := by decide

/-- StepHaltsExactlyAtBrk: a step that halts (BRK-1) and one that does not. -/
theorem witness_StepHaltsExactlyAtBrk :
    State.reset.run = .running ∧ nextOf (step State.reset) = some halted ∧ halted.run = .halted ∧
      ((nextOf (step (placed 0#16 [0xEA#8]))).map fun t => t.run) = some .running := by decide

/-- PcAfterEachInstruction, RegisterFrame, MemoryFrameOfNonStoring, OnlyCarryIsRead, InertStateIsNeitherReadNorWritten:
an instruction that stores nothing and does not write A answers a next state, here with every flag set. -/
theorem witness_frames :
    writesA (.cmpImm 0x0A#8) = false ∧ stores (.cmpImm 0x0A#8) = false ∧
      (∃ t, exec (.cmpImm 0x0A#8) State.reset = .next t) ∧
      ({ n := true, v := true, b := true, d := true, i := true, z := true, c := false } : Flags).c = State.reset.flags.c :=
  ⟨rfl, rfl, ⟨_, rfl⟩, rfl⟩

/-- FlagFrame, CyclesAddedAreTheTables, OnlyCarryIsRead's inner hypotheses: the entry of an instruction's opcode byte. -/
theorem witness_table_entry :
    ∃ opcode tail e t, encode (.adcImm 0x01#8) = opcode :: tail ∧ decoderEntry opcode = some e ∧
      exec (.adcImm 0x01#8) State.reset = .next t ∧ .b ∉ e.flagsWritten :=
  ⟨_, _, _, _, rfl, rfl, rfl, by decide⟩

/-- MemoryFrameOfStores, StepWritesOnlyTheZeroPage: an address just outside the zero page. -/
theorem witness_MemoryFrameOfStores :
    (∃ t, exec (.incZp 0xFF#8) State.reset = .next t) ∧ (∃ t, exec (.staZp 0xFF#8) State.reset = .next t) ∧
      0x0100#16 ≠ zpAddr 0xFF#8 ∧ 0x0100 ≤ (0x0100#16).toNat ∧
      (∃ t, step (placed 0#16 [0xE6#8, 0xFF#8]) = .next t) :=
  ⟨⟨_, rfl⟩, ⟨_, rfl⟩, by decide, by decide, ⟨_, rfl⟩⟩

/-- NextFetchSeesTheStore's first clause: the store is to the cell PC holds afterwards, 0x00FF at most. -/
theorem witness_NextFetchSeesTheStore_opcode :
    (nextOf (exec (.staZp 0xFF#8) (placed 0x00FD#16 [0x85#8, 0xFF#8]))).map (fun t => t.pc) = some (zpAddr 0xFF#8) ∧
      (nextOf (exec (.incZp 0x02#8) (placed 0#16 [0xE6#8, 0x02#8]))).map (fun t => t.pc) = some (zpAddr 0x02#8) := by
  decide

/-- NextFetchSeesTheStore's second clause: the store is to the operand byte of the LDA immediate that follows, for INC
with the opcode at 0xFFFF and the operand byte at 0x0000. -/
theorem witness_NextFetchSeesTheStore_operand :
    (nextOf (exec (.staZp 0x13#8) (placed 0x0010#16 [0x85#8, 0x13#8, 0xA9#8]))).map
        (fun t => (t.pc + 1#16, opcodeLength (t.readMem t.pc))) = some (zpAddr 0x13#8, some 2) ∧
      (nextOf (exec (.incZp 0x00#8) (placed 0xFFFD#16 [0xE6#8, 0x00#8, 0xA9#8]))).map
        (fun t => (t.pc + 1#16, opcodeLength (t.readMem t.pc))) = some (zpAddr 0x00#8, some 2) := by decide

/-- AccessorsAndTheirBounds: the last address and the first beyond it (90_conflicts.md C6). -/
theorem witness_AccessorsAndTheirBounds :
    busRead 65535 State.reset = .ok 0x00#8 ∧ busRead 65536 State.reset = .error (.outOfBounds 65536) ∧
      65535 ≤ 65535 ∧ 65535 < 65536 :=
  ⟨rfl, rfl, by decide, by decide⟩

/-- StepKeepsInv, HostOperationsKeepInv: the state after Reset meets the invariant and has a next state, by each way. -/
theorem witness_StepKeepsInv :
    Inv State.reset ∧ (∃ t, step State.reset = .next t) ∧ (∃ t, hostSetPc 0x0200#16 State.reset = .next t) ∧
      (∃ t, hostLoad 0x0200#16 [0xA9, 0x02] State.reset = .next t) :=
  ⟨by decide, ⟨_, rfl⟩, ⟨_, rfl⟩, ⟨_, rfl⟩⟩

/-- ReachableInertState, ReachableBreakMirrorsHalt: a loaded program's state and a halted state are reachable. -/
theorem witness_Reachable : Reachable halted ∧ Reachable (placed 0#16 [0xA9#8, 0x02#8]) :=
  ⟨.step _ _ (.reset 0#16) rfl, .load _ _ 0#16 [0xA9, 0x02] (.reset 0#16) rfl⟩

/-- CanonicalMemoryIsUnique: a memory in canonical form, and two that are not. -/
theorem witness_CanonicalMemoryIsUnique :
    Memory.wf [(0, 0x01#8), (65535, 0xFF#8)] = true ∧ Memory.wf [(1, 0x01#8), (0, 0x01#8)] = false ∧
      Memory.wf [(0, 0x00#8)] = false ∧ Memory.wf [(65536, 0x01#8)] = false := by decide

/-- CyclesNeverDecrease: a run of one step. -/
theorem witness_CyclesNeverDecrease : ∃ t, Sys2Proof.core.run 1 State.reset = .next t := ⟨_, rfl⟩

end Sys2Proof.Tests
end

/-! PROOFS for the family of 10_state.md: the state's registers, its inert part, memory's canonical form and the
cycle counter. First the facts about one instruction and one step, then the invariant, then the statements. -/

/-! ## The state an instruction leaves -/

namespace Sys2Proof.Machine

/-- The state after an instruction: `exec` without the outcome, which is always a next state (`exec_eq_after`). -/
def State.after (s : State) : Instr → State
  | .brk => (((s.setFlags s.flags.setBreak).halt).advance 1).charge Config.brkCycles
  | .adcImm m => (((s.setA (aluAdd s.a m s.flags.c)).setFlags (s.flags.afterAdc s.a m)).advance 2).charge 2
  | .staZp z => ((s.writeMem (zpAddr z) s.a).advance 2).charge 3
  | .bccRel d =>
    (s.setPc (if s.flags.c then relBase s else relTarget d s)).charge (if s.flags.c then 2 else 2 + takenPenalty d s)
  | .ldaZp z => ((s.loadA (zpOperand z s)).advance 2).charge 3
  | .ldaImm m => ((s.loadA m).advance 2).charge 2
  | .cmpImm m => ((s.setFlags (s.flags.afterCmp s.a m)).advance 2).charge 2
  | .incZp z =>
    (((s.writeMem (zpAddr z) (aluInc (zpOperand z s))).setFlags
      (s.flags.setZN (aluInc (zpOperand z s)))).advance 2).charge 5
  | .nop => (s.advance 1).charge 2

/-- Every instruction completes, in the state `State.after` says. -/
theorem exec_eq_after (i : Instr) (s : State) : exec i s = .next (s.after i) := by
  cases i with
  | bccRel d => simp only [exec, execBccRel, State.after]; split <;> rfl
  | _ => rfl

theorem exec_next_iff (i : Instr) (s t : State) : exec i s = .next t ↔ t = s.after i := by
  rw [exec_eq_after, Host.Outcome.next.injEq, eq_comm]

@[simp] theorem State.after_x (s : State) (i : Instr) : (s.after i).x = s.x := by cases i <;> rfl
@[simp] theorem State.after_y (s : State) (i : Instr) : (s.after i).y = s.y := by cases i <;> rfl
@[simp] theorem State.after_sp (s : State) (i : Instr) : (s.after i).sp = s.sp := by cases i <;> rfl
@[simp] theorem State.after_d (s : State) (i : Instr) : (s.after i).flags.d = s.flags.d := by cases i <;> rfl
@[simp] theorem State.after_i (s : State) (i : Instr) : (s.after i).flags.i = s.flags.i := by cases i <;> rfl

/-- BRK alone sets B (10_state.md R29). -/
theorem State.after_b (s : State) (i : Instr) : (s.after i).flags.b = if i = .brk then true else s.flags.b := by
  cases i <;> rfl

/-- BRK alone halts (10_state.md R36). -/
theorem State.after_run (s : State) (i : Instr) : (s.after i).run = if i = .brk then .halted else s.run := by
  cases i <;> rfl

theorem State.after_a_of_not_writesA (s : State) (i : Instr) (h : Safety.writesA i = false) :
    (s.after i).a = s.a := by
  cases i with
  | adcImm | ldaZp | ldaImm => cases h
  | _ => rfl

theorem State.wf_after (s : State) (i : Instr) (h : Memory.wf s.mem = true) : Memory.wf (s.after i).mem = true := by
  cases i with
  | staZp z | incZp z => exact State.wf_writeMem s (zpAddr z) _ h
  | _ => exact h

theorem State.cycles_le_after (s : State) (i : Instr) : s.cycles ≤ (s.after i).cycles := by
  cases i <;> exact Nat.le_add_right _ _

/-! ## The inert state: replaced, it passes through every operation -/

/-- The flags with other values of D and I. -/
def Flags.withInert (f : Flags) (d i : Bool) : Flags := { f with d := d, i := i }

/-- The state with other values of what no instruction reads: X, Y, SP, D, I, and a counter greater by `k`. -/
def State.withInert (s : State) (x y sp : Byte) (d i : Bool) (k : Nat) : State :=
  { s with x := x, y := y, sp := sp, flags := s.flags.withInert d i, cycles := s.cycles + k }

section Inert

variable (s : State) (f : Flags) (x y sp : Byte) (d i : Bool) (k : Nat)

@[simp] theorem Flags.setZN_withInert (out : Byte) : (f.withInert d i).setZN out = (f.setZN out).withInert d i := rfl
@[simp] theorem Flags.afterAdc_withInert (a m : Byte) :
    (f.withInert d i).afterAdc a m = (f.afterAdc a m).withInert d i := rfl
@[simp] theorem Flags.afterCmp_withInert (a m : Byte) :
    (f.withInert d i).afterCmp a m = (f.afterCmp a m).withInert d i := rfl
@[simp] theorem Flags.setBreak_withInert : (f.withInert d i).setBreak = f.setBreak.withInert d i := rfl
@[simp] theorem Flags.withInert_c : (f.withInert d i).c = f.c := rfl

@[simp] theorem State.withInert_a : (s.withInert x y sp d i k).a = s.a := rfl
@[simp] theorem State.withInert_flags : (s.withInert x y sp d i k).flags = s.flags.withInert d i := rfl
@[simp] theorem relBase_withInert : relBase (s.withInert x y sp d i k) = relBase s := rfl
@[simp] theorem relTarget_withInert (b : Byte) : relTarget b (s.withInert x y sp d i k) = relTarget b s := rfl
@[simp] theorem takenPenalty_withInert (b : Byte) : takenPenalty b (s.withInert x y sp d i k) = takenPenalty b s := rfl
@[simp] theorem zpOperand_withInert (z : Byte) : zpOperand z (s.withInert x y sp d i k) = zpOperand z s := rfl

@[simp] theorem State.setPc_withInert (w : Word) :
    (s.withInert x y sp d i k).setPc w = (s.setPc w).withInert x y sp d i k := rfl
@[simp] theorem State.advance_withInert (n : Nat) :
    (s.withInert x y sp d i k).advance n = (s.advance n).withInert x y sp d i k := rfl
@[simp] theorem State.setA_withInert (v : Byte) :
    (s.withInert x y sp d i k).setA v = (s.setA v).withInert x y sp d i k := rfl
@[simp] theorem State.setFlags_withInert (g : Flags) :
    (s.withInert x y sp d i k).setFlags (g.withInert d i) = (s.setFlags g).withInert x y sp d i k := rfl
@[simp] theorem State.loadA_withInert (v : Byte) :
    (s.withInert x y sp d i k).loadA v = (s.loadA v).withInert x y sp d i k := rfl
@[simp] theorem State.writeMem_withInert (w : Word) (v : Byte) :
    (s.withInert x y sp d i k).writeMem w v = (s.writeMem w v).withInert x y sp d i k := rfl
@[simp] theorem State.halt_withInert : (s.withInert x y sp d i k).halt = s.halt.withInert x y sp d i k := rfl
@[simp] theorem State.charge_withInert (n : Nat) :
    (s.withInert x y sp d i k).charge n = (s.charge n).withInert x y sp d i k := by
  simp [State.charge, State.withInert, Nat.add_right_comm]

/-- No instruction reads or writes the inert state. -/
theorem State.after_withInert (ins : Instr) :
    (s.withInert x y sp d i k).after ins = (s.after ins).withInert x y sp d i k := by
  cases ins with
  | bccRel b => cases hc : s.flags.c <;> simp [State.after, hc]
  | _ => simp [State.after]

end Inert

/-! ## One step -/

/-- BRK is the meaning of the opcode byte 0x00 and of no other of the table. -/
theorem entry_make_eq_brk_iff (e : Entry) (he : e ∈ decoderTable) (operand : Byte) :
    e.make operand = .brk ↔ e.opcode = 0x00#8 := by
  revert e
  simp [decoderTable]

theorem fetchInstr_ok (s : State) (i : Instr) (h : fetchInstr s = .ok i) :
    ∃ e ∈ decoderTable, e.opcode = s.readMem s.pc ∧ ∃ operand, i = e.make operand := by
  rw [fetchInstr_eq] at h
  split at h
  · cases h
  · next e he =>
    obtain ⟨hmem, hop⟩ := decoderEntry_mem _ e he
    injection h with h
    exact ⟨e, hmem, hop, _, h.symm⟩

theorem fetchInstr_brk_iff (s : State) (i : Instr) (h : fetchInstr s = .ok i) :
    i = .brk ↔ s.readMem s.pc = 0x00#8 := by
  obtain ⟨e, he, hop, operand, rfl⟩ := fetchInstr_ok s i h
  rw [← hop]
  exact entry_make_eq_brk_iff e he operand

/-- A step stays halted or leaves the state after the instruction fetched. -/
theorem step_next_after (s t : State) (h : step s = .next t) :
    (s.run = .halted ∧ t = s) ∨ (s.run = .running ∧ ∃ i, fetchInstr s = .ok i ∧ t = s.after i) := by
  simpa only [exec_next_iff] using step_next s t h

theorem step_cycles_le (s t : State) (h : step s = .next t) : s.cycles ≤ t.cycles := by
  obtain ⟨-, rfl⟩ | ⟨-, i, -, rfl⟩ := step_next_after s t h
  · exact le_rfl
  · exact s.cycles_le_after i

theorem core_run_succ_next (n : Nat) (s t : State) (h : Sys2Proof.core.run (n + 1) s = .next t) :
    ∃ u, step s = .next u ∧ Sys2Proof.core.run n u = .next t := by
  simp only [Host.Core.run] at h
  split at h
  · next u hu => exact ⟨u, hu, h⟩
  · cases h
  · cases h

/-! ## Reading a memory in canonical form -/

@[simp] theorem Memory.wfFrom_cons (low key : Nat) (byte : Byte) (rest : Memory) :
    Memory.wfFrom low ((key, byte) :: rest) = true ↔
      low ≤ key ∧ key < Config.memorySize ∧ byte ≠ Memory.unlisted ∧ Memory.wfFrom (key + 1) rest = true := by
  simp [Memory.wfFrom, and_assoc]

@[simp] theorem Memory.readCell_cons_self (key : Nat) (byte : Byte) (rest : Memory) :
    Memory.readCell ((key, byte) :: rest) key = byte := if_pos rfl

theorem Memory.readCell_cons_ne (key addr : Nat) (byte : Byte) (rest : Memory) (h : addr ≠ key) :
    Memory.readCell ((key, byte) :: rest) addr = Memory.readCell rest addr := if_neg h

theorem Memory.readCell_eq_unlisted_of_lt (m : Memory) (low addr : Nat) (hm : Memory.wfFrom low m = true)
    (h : addr < low) : Memory.readCell m addr = Memory.unlisted := by
  induction m generalizing low with
  | nil => rfl
  | cons c rest ih =>
    obtain ⟨key, byte⟩ := c
    obtain ⟨hlow, -, -, hrest⟩ := (Memory.wfFrom_cons ..).mp hm
    rw [Memory.readCell_cons_ne _ _ _ _ (by omega)]
    exact ih (key + 1) hrest (by omega)

/-- A listed address is at or above the first key. -/
theorem Memory.key_le_of_readCell_ne (low key addr : Nat) (byte : Byte) (rest : Memory)
    (hm : Memory.wfFrom low ((key, byte) :: rest) = true)
    (h : Memory.readCell ((key, byte) :: rest) addr ≠ Memory.unlisted) : key ≤ addr := by
  obtain ⟨-, hrest⟩ := (Memory.wfFrom_cons ..).mp hm
  by_contra hlt
  exact h (Memory.readCell_eq_unlisted_of_lt _ key addr ((Memory.wfFrom_cons ..).mpr ⟨le_rfl, hrest⟩) (by omega))

/-- Past a common first cell, memories that read alike have rests that read alike. -/
theorem Memory.readCell_rest_eq (key addr : Nat) (byte : Byte) (rest rest' : Memory)
    (hr : Memory.wfFrom (key + 1) rest = true) (hr' : Memory.wfFrom (key + 1) rest' = true)
    (h : Memory.readCell ((key, byte) :: rest) addr = Memory.readCell ((key, byte) :: rest') addr) :
    Memory.readCell rest addr = Memory.readCell rest' addr := by
  by_cases hk : addr = key
  · rw [Memory.readCell_eq_unlisted_of_lt rest _ _ hr (by omega),
      Memory.readCell_eq_unlisted_of_lt rest' _ _ hr' (by omega)]
  · rwa [Memory.readCell_cons_ne _ _ _ _ hk, Memory.readCell_cons_ne _ _ _ _ hk] at h

theorem Memory.wfFrom_eq_of_readCell_eq (m m' : Memory) (low : Nat) (hm : Memory.wfFrom low m = true)
    (hm' : Memory.wfFrom low m' = true) (h : ∀ addr, Memory.readCell m addr = Memory.readCell m' addr) :
    m = m' := by
  induction m generalizing low m' with
  | nil =>
    cases m' with
    | nil => rfl
    | cons c' rest' =>
      obtain ⟨key', byte'⟩ := c'
      obtain ⟨-, -, hbyte', -⟩ := (Memory.wfFrom_cons ..).mp hm'
      exact absurd ((h key').trans (Memory.readCell_cons_self ..)).symm hbyte'
  | cons c rest ih =>
    obtain ⟨key, byte⟩ := c
    obtain ⟨-, -, hbyte, hrest⟩ := (Memory.wfFrom_cons ..).mp hm
    cases m' with
    | nil => exact absurd ((Memory.readCell_cons_self ..).symm.trans (h key)) hbyte
    | cons c' rest' =>
      obtain ⟨key', byte'⟩ := c'
      obtain ⟨-, -, hbyte', hrest'⟩ := (Memory.wfFrom_cons ..).mp hm'
      have hle : key' ≤ key := Memory.key_le_of_readCell_ne _ _ _ _ _ hm' (by simpa [← h key] using hbyte)
      have hge : key ≤ key' := Memory.key_le_of_readCell_ne _ _ _ _ _ hm (by simpa [h key'] using hbyte')
      obtain rfl : key = key' := le_antisymm hge hle
      obtain rfl : byte = byte' := by simpa using h key
      rw [ih rest' (key + 1) hrest hrest' fun addr => Memory.readCell_rest_eq _ _ _ _ _ hrest hrest' (h addr)]

end Sys2Proof.Machine

/-! ## The invariant -/

namespace Sys2Proof.Safety

open Sys2Proof.Machine

theorem inv_resetAt (origin : Word) : Inv (State.resetAt origin) :=
  ⟨rfl, by simp [BreakMirrorsHalt, State.resetAt, Flags.clear], rfl, rfl, rfl, rfl, rfl⟩

/-- BRK sets B and halts at once; no other instruction does either. -/
theorem breakMirrorsHalt_after (s : State) (i : Instr) (h : BreakMirrorsHalt s) : BreakMirrorsHalt (s.after i) := by
  unfold BreakMirrorsHalt at h ⊢
  rw [State.after_b, State.after_run]
  split
  · exact iff_of_true rfl rfl
  · exact h

theorem inv_after (s : State) (i : Instr) (h : Inv s) : Inv (s.after i) := by
  obtain ⟨hmem, hbreak, hinert⟩ := h
  exact ⟨s.wf_after i hmem, breakMirrorsHalt_after s i hbreak, by simpa [InertAtReset] using hinert⟩

theorem inv_step (s t : State) (h : Inv s) (hst : step s = .next t) : Inv t := by
  obtain ⟨-, rfl⟩ | ⟨-, i, -, rfl⟩ := step_next_after s t hst
  · exact h
  · exact inv_after s i h

theorem inv_hostSetPc (s t : State) (origin : Word) (h : Inv s) (hst : hostSetPc origin s = .next t) : Inv t := by
  obtain ⟨-, rfl⟩ := hostSetPc_next origin s t hst
  exact h

theorem inv_hostLoad (s t : State) (origin : Word) (bytes : List Nat) (h : Inv s)
    (hst : hostLoad origin bytes s = .next t) : Inv t := by
  obtain ⟨-, hload⟩ := hostLoad_next origin bytes s t hst
  obtain ⟨ht, hwf⟩ := loadBytes_ok _ _ _ _ hload
  obtain ⟨hmem, hrest⟩ := h
  rw [ht]
  exact ⟨hwf hmem, hrest⟩

/-- The invariant holds in every reachable state: the one induction over `Reachable`. -/
theorem inv_of_reachable (s : State) (h : Reachable s) : Inv s := by
  induction h with
  | reset origin => exact inv_resetAt origin
  | step s t _ hst ih => exact inv_step s t ih hst
  | load s t origin bytes _ hst ih => exact inv_hostLoad s t origin bytes ih hst
  | setPc s t origin _ hst ih => exact inv_hostSetPc s t origin ih hst

end Sys2Proof.Safety

/-! ## The statements of 10_state.md -/

namespace Sys2Proof.Proofs

open Sys2Proof.Machine Sys2Proof.Safety

/-- Settles O44: a step leaves the state or runs one instruction, and each instruction keeps the invariant. -/
theorem stepKeepsInv : Obligations.StepKeepsInv :=
  inv_step

/-- Settles O29: BRK alone halts, and it is fetched exactly at the opcode byte 0x00. -/
theorem stepHaltsExactlyAtBrk : Obligations.StepHaltsExactlyAtBrk := by
  intro s t hrun hst
  obtain ⟨hhalt, -⟩ | ⟨-, i, hi, rfl⟩ := step_next_after s t hst
  · simp [hrun] at hhalt
  · rw [← fetchInstr_brk_iff s i hi, State.after_run]
    simp [hrun]

/-- Settles O34, by the registers of `State.after`. -/
theorem registerFrame : Obligations.RegisterFrame := by
  intro i s t h
  obtain rfl := (exec_next_iff i s t).mp h
  exact ⟨s.after_x i, s.after_y i, s.after_sp i, s.after_a_of_not_writesA i⟩

/-- Settles O41: the replaced inert state passes through the instruction. -/
theorem inertStateIsNeitherReadNorWritten : Obligations.InertStateIsNeitherReadNorWritten := by
  intro i s t x y sp d ir k h
  obtain rfl := (exec_next_iff i s t).mp h
  exact (exec_next_iff ..).mpr (s.after_withInert x y sp d ir k i).symm

/-- Settles O45, one host operation at a time. -/
theorem hostOperationsKeepInv : Obligations.HostOperationsKeepInv := by
  rintro s t origin bytes hs (rfl | hst | hst)
  · exact inv_resetAt origin
  · exact inv_hostSetPc s t origin hs hst
  · exact inv_hostLoad s t origin bytes hs hst

/-- Settles O46: the inert part of the invariant. -/
theorem reachableInertState : Obligations.ReachableInertState := by
  intro s hs
  obtain ⟨-, -, hinert⟩ := inv_of_reachable s hs
  exact hinert

/-- Settles O47: the invariant's clause on B. -/
theorem reachableBreakMirrorsHalt : Obligations.ReachableBreakMirrorsHalt := by
  intro s hs
  obtain ⟨-, hbreak, -⟩ := inv_of_reachable s hs
  exact hbreak

/-- Settles O48, by induction on the list: the first keys of two memories that read alike bound each other. -/
theorem canonicalMemoryIsUnique : Obligations.CanonicalMemoryIsUnique :=
  fun m m' => Memory.wfFrom_eq_of_readCell_eq m m' 0

/-- Settles O49, by induction on the number of steps. -/
theorem cyclesNeverDecrease : Obligations.CyclesNeverDecrease := by
  intro n
  induction n with
  | zero =>
    intro s t h
    cases h
    exact le_rfl
  | succ n ih =>
    intro s t h
    obtain ⟨u, hstep, hrun⟩ := core_run_succ_next n s t h
    exact (step_cycles_le s u hstep).trans (ih u t hrun)

/-- Settles O2: `State.resetAt` is Running. -/
theorem resetLeavesRunning : Obligations.ResetLeavesRunning :=
  fun _ _ => rfl

/-- Settles O43. -/
theorem resetMeetsInv : Obligations.ResetMeetsInv :=
  inv_resetAt

end Sys2Proof.Proofs

/-! PROOFS for the family of 20_memory.md: what each instruction leaves in memory, and what a fetch reads after it.
First the reads after one instruction, then the statements. -/

/-! ## Reading memory after an instruction -/

namespace Sys2Proof.Machine

/-- INC's result is the byte plus one, mod 256 (R116). -/
theorem aluInc_eq (a : Byte) : aluInc a = a + 1#8 := by
  apply BitVec.eq_of_toNat_eq
  simp [aluInc]

/-- Moving PC by one is the sum mod 65536 (R53). -/
theorem pc_add_one (w : Word) : w + 1#16 = BitVec.ofNat 16 ((w.toNat + 1) % 65536) := by
  apply BitVec.eq_of_toNat_eq
  simp

/-- An instruction other than STA and INC does not touch the memory (R55). -/
theorem State.after_mem_of_not_stores (s : State) (i : Instr) (h : Safety.stores i = false) :
    (s.after i).mem = s.mem := by
  cases i with
  | staZp | incZp => cases h
  | _ => rfl

/-- STA's one store, seen by every read after it (R132). -/
theorem State.readMem_after_staZp (s : State) (z : Byte) (addr : Word) :
    (s.after (.staZp z)).readMem addr = if addr = zpAddr z then s.a else s.readMem addr :=
  s.readMem_writeMem (zpAddr z) addr s.a

/-- INC's one store, seen by every read after it (R142). -/
theorem State.readMem_after_incZp (s : State) (z : Byte) (addr : Word) :
    (s.after (.incZp z)).readMem addr =
      if addr = zpAddr z then s.readMem (zpAddr z) + 1#8 else s.readMem addr := by
  rw [← aluInc_eq]
  exact s.readMem_writeMem (zpAddr z) addr _

end Sys2Proof.Machine

/-! ## The statements of 20_memory.md -/

namespace Sys2Proof.Proofs

open Sys2Proof.Machine Sys2Proof.Safety

/-- Settles O36: reads see memory only, and STA and INC alone touch it. -/
theorem memoryFrameOfNonStoring : Obligations.MemoryFrameOfNonStoring := by
  intro i s t hi h addr
  obtain rfl := (exec_next_iff i s t).mp h
  exact State.readMem_congr _ _ (s.after_mem_of_not_stores i hi) addr

/-- Settles O31, by the arithmetic of PC. -/
theorem fetchNextResult : Obligations.FetchNextResult := by
  intro s
  rw [← pc_add_one]
  rfl

/-- Settles O37, by the one store of either instruction. -/
theorem memoryFrameOfStores : Obligations.MemoryFrameOfStores := by
  rintro z s t (h | h) addr hne
  · obtain rfl := (exec_next_iff _ s t).mp h
    rw [State.readMem_after_staZp, if_neg hne]
  · obtain rfl := (exec_next_iff _ s t).mp h
    rw [State.readMem_after_incZp, if_neg hne]

/-- Settles O39: the cell reads the byte stored, and both fetched bytes are reads. -/
theorem nextFetchSeesTheStore : Obligations.NextFetchSeesTheStore := by
  intro i z v s t hi h
  obtain rfl := (exec_next_iff i s t).mp h
  have hread : (s.after i).readMem (zpAddr z) = v := by
    obtain ⟨rfl, rfl⟩ | ⟨rfl, rfl⟩ := hi
    · rw [State.readMem_after_staZp, if_pos rfl]
    · rw [State.readMem_after_incZp, if_pos rfl]
  constructor
  · intro hpc
    rw [fetchBytes_opcode, hpc, hread]
  · intro hpc hlen
    rw [fetchBytes_operand _ hlen, hpc, hread]

end Sys2Proof.Proofs

/-! PROOFS for the family of 30_encoding.md: the decoder, the encoder and the fault of an illegal opcode byte. First
the facts about the rows of the table, then what decodes (`decode_ok_iff`), then the statements. -/

/-! ## The rows of the table -/

namespace Sys2Proof

open Safety

/-- The bytes of a row with an operand byte: the opcode, and the operand where the mode has one (R80 to R82). -/
def Entry.bytes (e : Entry) (operand : Byte) : List Byte :=
  e.opcode :: if e.mode = .none then [] else [operand]

/-- The opcode bytes of the table are the nine of R84. -/
theorem mem_implementedOpcodes_iff (opcode : Byte) :
    opcode ∈ implementedOpcodes ↔ ∃ e ∈ decoderTable, e.opcode = opcode :=
  List.mem_map (f := Entry.opcode) (l := decoderTable)

theorem decoderEntry_eq_none_iff (opcode : Byte) : decoderEntry opcode = none ↔ opcode ∉ implementedOpcodes := by
  simp [decoderEntry, mem_implementedOpcodes_iff]

/-- No two rows have one opcode byte, so a row is found by its own. -/
theorem decoderEntry_opcode (e : Entry) (he : e ∈ decoderTable) : decoderEntry e.opcode = some e := by
  revert e
  simp [decoderTable, decoderEntry]

/-- The encoder writes the row's bytes (R84). -/
theorem encode_make (e : Entry) (he : e ∈ decoderTable) (operand : Byte) :
    encode (e.make operand) = e.bytes operand := by
  revert e
  simp [decoderTable, encode, Entry.bytes]

/-- A row without an operand builds one instruction. -/
theorem make_of_mode_none (e : Entry) (he : e ∈ decoderTable) (hmode : e.mode = .none) (operand : Byte) :
    e.make operand = e.make 0 := by
  revert e
  simp [decoderTable]

/-- BRK and NOP are the rows without an operand (R85). -/
theorem mode_none_iff (e : Entry) (he : e ∈ decoderTable) :
    e.mode = .none ↔ e.opcode = 0x00#8 ∨ e.opcode = 0xEA#8 := by
  revert e
  simp [decoderTable]

theorem bytes_length (e : Entry) (he : e ∈ decoderTable) (operand : Byte) :
    (e.bytes operand).length = if e.opcode = 0x00#8 ∨ e.opcode = 0xEA#8 then 1 else 2 := by
  simp only [← mode_none_iff e he]
  by_cases hmode : e.mode = .none <;> simp [Entry.bytes, hmode]

/-- Every instruction is made by the row of an opcode byte, from some operand byte. -/
theorem exists_decoderEntry_make (i : Instr) :
    ∃ opcode operand e, decoderEntry opcode = some e ∧ i = e.make operand := by
  cases i with
  | brk => exact ⟨0x00#8, 0, _, rfl, rfl⟩
  | adcImm m => exact ⟨0x69#8, m, _, rfl, rfl⟩
  | staZp z => exact ⟨0x85#8, z, _, rfl, rfl⟩
  | bccRel d => exact ⟨0x90#8, d, _, rfl, rfl⟩
  | ldaZp z => exact ⟨0xA5#8, z, _, rfl, rfl⟩
  | ldaImm m => exact ⟨0xA9#8, m, _, rfl, rfl⟩
  | cmpImm m => exact ⟨0xC9#8, m, _, rfl, rfl⟩
  | incZp z => exact ⟨0xE6#8, z, _, rfl, rfl⟩
  | nop => exact ⟨0xEA#8, 0, _, rfl, rfl⟩

/-! ## What decodes -/

theorem decode_bytes (e : Entry) (he : e ∈ decoderTable) (operand : Byte) (rest : List Byte) :
    decode (e.bytes operand ++ rest) = .ok (e.make operand, rest) := by
  rw [Entry.bytes, List.cons_append, decode_cons, decoderEntry_opcode e he]
  by_cases hmode : e.mode = .none
  · simp [hmode, make_of_mode_none e he hmode operand]
  · simp [hmode]

theorem bytes_of_decode (bytes : List Byte) (i : Instr) (rest : List Byte) (h : decode bytes = .ok (i, rest)) :
    ∃ e ∈ decoderTable, ∃ operand, i = e.make operand ∧ bytes = e.bytes operand ++ rest := by
  cases bytes with
  | nil => cases h
  | cons opcode tail =>
    rw [decode_cons] at h
    split at h
    · cases h
    · next e hentry =>
      obtain ⟨he, rfl⟩ := decoderEntry_mem opcode e hentry
      split at h
      · next hmode =>
        cases h
        exact ⟨e, he, 0, rfl, by simp [Entry.bytes, hmode]⟩
      · next hmode =>
        cases tail with
        | nil => cases h
        | cons operand tail' =>
          cases h
          exact ⟨e, he, operand, rfl, by simp [Entry.bytes, hmode]⟩

/-- What decodes, and to what: the bytes of a row of the table, followed by the rest. -/
theorem decode_ok_iff (bytes : List Byte) (i : Instr) (rest : List Byte) :
    decode bytes = .ok (i, rest) ↔
      ∃ e ∈ decoderTable, ∃ operand, i = e.make operand ∧ bytes = e.bytes operand ++ rest := by
  constructor
  · exact bytes_of_decode bytes i rest
  · rintro ⟨e, he, operand, rfl, rfl⟩
    exact decode_bytes e he operand rest

theorem decode_unimplemented (opcode : Byte) (rest : List Byte) (h : opcode ∉ implementedOpcodes) :
    decode (opcode :: rest) = .error (.unimplementedOpcode opcode) := by
  rw [decode_cons, (decoderEntry_eq_none_iff opcode).mpr h]

/-! ## The fault of an illegal opcode byte -/

namespace Machine

theorem step_unimplemented (s : State) (hrun : s.run = .running) (h : s.readMem s.pc ∉ implementedOpcodes) :
    step s = .fault (.unimplementedOpcode (s.readMem s.pc)) := by
  have hfetch : fetchInstr s = .error (.unimplementedOpcode (s.readMem s.pc)) := by
    rw [fetchInstr_eq, (decoderEntry_eq_none_iff _).mpr h]
  simp only [step, hrun, hfetch]

/-- A Run ends at a Step that faults, with the state the Step began in (R105). -/
theorem runLoop_of_step_fault (s : State) (f : Fault) (n : Nat) (hrun : s.run = .running) (h : step s = .fault f) :
    runLoop (n + 1) s = .faulted f s := by
  have hone : executeOne s = some (.fault f) := by simp only [executeOne, hrun, h]
  simp only [runLoop, hone]

end Machine

end Sys2Proof

/-! ## The statements of 30_encoding.md -/

namespace Sys2Proof.Proofs

open Sys2Proof.Machine Sys2Proof.Safety

/-- Settles O21: an instruction is a row's, the encoder writes the row's bytes, and those decode to it. -/
theorem decodeOfEncode : Obligations.DecodeOfEncode := by
  intro i rest _
  obtain ⟨opcode, operand, e, hentry, rfl⟩ := exists_decoderEntry_make i
  obtain ⟨he, -⟩ := decoderEntry_mem opcode e hentry
  rw [encode_make e he]
  exact decode_bytes e he operand rest

/-- Settles O22: what decodes is a row's bytes, and those are what the encoder writes. -/
theorem encodeOfDecode : Obligations.EncodeOfDecode := by
  intro bytes i rest h
  obtain ⟨e, he, operand, rfl, rfl⟩ := (decode_ok_iff bytes i rest).mp h
  rw [encode_make e he]

/-- Settles O23: the operand byte is the row's, or for BRK and NOP the first of the rest. -/
theorem decoderAcceptsExactlyTheNine : Obligations.DecoderAcceptsExactlyTheNine := by
  intro opcode operand rest
  refine ⟨fun h => ?_, decode_unimplemented opcode rest⟩
  obtain ⟨e, he, rfl⟩ := (mem_implementedOpcodes_iff opcode).mp h
  by_cases hmode : e.mode = .none
  · exact ⟨_, (decode_ok_iff _ _ (operand :: rest)).mpr ⟨e, he, 0, rfl, by simp [Entry.bytes, hmode]⟩⟩
  · exact ⟨_, (decode_ok_iff _ _ rest).mpr ⟨e, he, operand, rfl, by simp [Entry.bytes, hmode]⟩⟩

/-- Settles O24, by the length of the row's bytes. -/
theorem decodeConsumesTheOpcodesLength : Obligations.DecodeConsumesTheOpcodesLength := by
  intro opcode tail i rest h
  obtain ⟨e, he, operand, -, hbytes⟩ := (decode_ok_iff _ i rest).mp h
  obtain rfl : opcode = e.opcode := (List.cons.inj hbytes).1
  calc
    tail.length + 1 = (e.bytes operand ++ rest).length := congrArg List.length hbytes
    _ = rest.length + (e.bytes operand).length := by rw [List.length_append, Nat.add_comm]
    _ = _ := by rw [bytes_length e he]

/-- Settles O27: the opcode byte has no row, so the fetch faults, and with it the Step and the Run. -/
theorem illegalOpcodeFaults : Obligations.IllegalOpcodeFaults := by
  intro s hrun h
  have hstep := step_unimplemented s hrun h
  exact ⟨hstep, fun n => runLoop_of_step_fault s _ n hrun hstep⟩

/-- Settles O25: seven closed words, evaluated. -/
theorem specWordsDecode : Obligations.SpecWordsDecode :=
  ⟨rfl, rfl, rfl, rfl, rfl, rfl, rfl⟩

end Sys2Proof.Proofs

/-! PROOFS for the family of 40_dispatch_and_addressing.md: the overflow of ADC, the decoder table's cycles and flags,
the dispatcher's Step and the Run of Steps. First the facts of each, then the statements. -/

/-! ## Signed overflow -/

namespace Sys2Proof.Machine

/-- The mask formula says that the signed sum leaves the signed bytes: it compares the sum's bit 7 with both operands'
(R114, R120). -/
theorem aluOverflow_iff (a b : Byte) (c : Bool) :
    aluOverflow a b c = true ↔
      a.toInt + b.toInt + (c.toNat : Int) < -128 ∨ 127 < a.toInt + b.toInt + (c.toNat : Int) := by
  have ha := a.isLt
  have hb := b.isLt
  have hc := c.toNat_le
  have hbits : aluOverflow a b c = true ↔
      ¬ (a.toNat / 128 % 2 = 1 ↔ aluSum a b c / 128 % 2 = 1) ∧
        ¬ (b.toNat / 128 % 2 = 1 ↔ aluSum a b c / 128 % 2 = 1) := by
    simp [aluOverflow_testBit, Nat.testBit_eq_decide_div_mod_eq]
  have hsum : aluSum a b c = a.toNat + b.toNat + c.toNat := rfl
  rw [hbits, BitVec.toInt_eq_toNat_cond, BitVec.toInt_eq_toNat_cond]
  split_ifs <;> omega

end Sys2Proof.Machine

/-! ## The rows of the table: cycles and flags -/

namespace Sys2Proof

theorem exists_make_of_encode (i : Instr) (opcode : Byte) (tail : List Byte) (e : Entry)
    (hi : encode i = opcode :: tail) (he : decoderEntry opcode = some e) :
    e ∈ decoderTable ∧ ∃ operand, i = e.make operand := by
  obtain ⟨opcode', operand, e', he', rfl⟩ := exists_decoderEntry_make i
  obtain ⟨hmem, -⟩ := decoderEntry_mem opcode' e' he'
  rw [encode_make e' hmem] at hi
  obtain rfl : e'.opcode = opcode := (List.cons.inj hi).1
  obtain rfl : e' = e := Option.some.inj ((decoderEntry_opcode e' hmem).symm.trans he)
  exact ⟨hmem, operand, rfl⟩

/-- D and I are in no row's flags written (10_state.md R26). -/
theorem inert_not_mem_flagsWritten : ∀ e ∈ decoderTable, .d ∉ e.flagsWritten ∧ .i ∉ e.flagsWritten := by
  decide

namespace Machine

open Safety

/-- What an instruction adds to its base cycles: only a taken BCC has a penalty (R122). -/
def extraCycles (s : State) : Instr → Nat
  | .bccRel d => if s.flags.c then 0 else takenPenalty d s
  | _ => 0

theorem relTarget_eq_displaced (d : Byte) (s : State) : relTarget d s = displaced (relBase s) d :=
  relTarget_eq_ofInt d s

theorem takenPenalty_eq (d : Byte) (s : State) :
    takenPenalty d s =
      if (relBase s).toNat / 256 = (displaced (relBase s) d).toNat / 256 then 1 else 2 := by
  simp only [takenPenalty, relCrosses_iff, relTarget_eq_displaced, ne_eq, ite_not]

theorem cycles_after_bccRel (s : State) (d : Byte) :
    (s.after (.bccRel d)).cycles = s.cycles + 2 + extraCycles s (.bccRel d) := by
  cases hc : s.flags.c <;> simp [State.after, extraCycles, hc, Nat.add_assoc]

/-- Row by row, the meaning adds the row's base cycles (R122). -/
theorem cycles_after_make (s : State) (operand : Byte) : ∀ e ∈ decoderTable,
    (s.after (e.make operand)).cycles = s.cycles + e.baseCycles + extraCycles s (e.make operand) := by
  simp only [decoderTable, List.forall_mem_cons]
  exact ⟨rfl, rfl, rfl, cycles_after_bccRel s operand, rfl, rfl, rfl, rfl, rfl, nofun⟩

section FlagWrites

variable (f f' : Flags) (a m out : Byte) (g : Flag)

/-! Each write of the flag register leaves the flags it does not list (R121). -/

theorem flagOf_setZN_frame (hg : g ∉ [Flag.z, .n]) : flagOf (f.setZN out) g = flagOf f g := by
  cases g <;> simp [flagOf] at hg ⊢

theorem flagOf_afterAdc_frame (hg : g ∉ [Flag.c, .z, .n, .v]) : flagOf (f.afterAdc a m) g = flagOf f g := by
  cases g <;> simp [flagOf] at hg ⊢

theorem flagOf_afterCmp_frame (hg : g ∉ [Flag.c, .z, .n]) : flagOf (f.afterCmp a m) g = flagOf f g := by
  cases g <;> simp [flagOf] at hg ⊢

theorem flagOf_setBreak_frame (hg : g ∉ [Flag.b]) : flagOf f.setBreak g = flagOf f g := by
  cases g <;> simp [flagOf] at hg ⊢

/-! The flags it lists take values in which the old flags do not count, but for C in ADC. -/

theorem flagOf_setZN_congr (hg : g ∈ [Flag.z, .n]) : flagOf (f.setZN out) g = flagOf (f'.setZN out) g := by
  cases g <;> simp [flagOf] at hg ⊢

theorem flagOf_afterAdc_congr (hc : f.c = f'.c) (hg : g ∈ [Flag.c, .z, .n, .v]) :
    flagOf (f.afterAdc a m) g = flagOf (f'.afterAdc a m) g := by
  cases g <;> simp [flagOf, adcV_eq, hc] at hg ⊢

theorem flagOf_afterCmp_congr (hg : g ∈ [Flag.c, .z, .n]) :
    flagOf (f.afterCmp a m) g = flagOf (f'.afterCmp a m) g := by
  cases g <;> simp [flagOf] at hg ⊢

theorem flagOf_setBreak_congr (hg : g ∈ [Flag.b]) : flagOf f.setBreak g = flagOf f'.setBreak g := by
  cases g <;> simp [flagOf] at hg ⊢

end FlagWrites

/-- Row by row, a flag the row does not list is as before (R121). -/
theorem flagOf_after_make_frame (s : State) (operand : Byte) (g : Flag) : ∀ e ∈ decoderTable,
    g ∉ e.flagsWritten → flagOf (s.after (e.make operand)).flags g = flagOf s.flags g := by
  simp only [decoderTable, List.forall_mem_cons]
  exact ⟨flagOf_setBreak_frame s.flags g, flagOf_afterAdc_frame s.flags s.a operand g, fun _ => rfl, fun _ => rfl,
    flagOf_setZN_frame s.flags _ g, flagOf_setZN_frame s.flags operand g, flagOf_afterCmp_frame s.flags s.a operand g,
    flagOf_setZN_frame s.flags _ g, fun _ => rfl, nofun⟩

/-- Row by row, a flag the row lists is the same from any flags with the same C (R121). -/
theorem flagOf_after_make_congr (s : State) (f : Flags) (hc : f.c = s.flags.c) (operand : Byte) (g : Flag) :
    ∀ e ∈ decoderTable, g ∈ e.flagsWritten →
      flagOf ((s.setFlags f).after (e.make operand)).flags g = flagOf (s.after (e.make operand)).flags g := by
  simp only [decoderTable, List.forall_mem_cons]
  exact ⟨flagOf_setBreak_congr f s.flags g, flagOf_afterAdc_congr f s.flags s.a operand g hc, nofun, nofun,
    flagOf_setZN_congr f s.flags _ g, flagOf_setZN_congr f s.flags operand g,
    flagOf_afterCmp_congr f s.flags s.a operand g, flagOf_setZN_congr f s.flags _ g, nofun, nofun⟩

/-- Apart from the flags, an instruction leaves the same state from any flags with the same C. -/
theorem State.after_setFlags (s : State) (f : Flags) (hc : f.c = s.flags.c) (i : Instr) :
    ((s.setFlags f).after i).setFlags (s.after i).flags = s.after i := by
  cases i with
  | adcImm m => simp only [State.after, setFlags_flags, setFlags_a, hc]; rfl
  | bccRel d => simp only [State.after, setFlags_flags, hc]; rfl
  | _ => rfl

/-! ## One Step -/

theorem fetchInstr_of_decode (s : State) (i : Instr) (rest : List Byte)
    (h : decode [s.readMem s.pc, s.readMem (s.pc + 1#16)] = .ok (i, rest)) : fetchInstr s = .ok i := by
  rw [decode_cons] at h
  rw [fetchInstr_eq]
  cases hentry : decoderEntry (s.readMem s.pc) with
  | none => simp [hentry] at h
  | some e => by_cases hmode : e.mode = .none <;> simp_all

theorem step_of_fetchInstr (s : State) (i : Instr) (hrun : s.run = .running) (h : fetchInstr s = .ok i) :
    step s = exec i s := by
  simp only [step, hrun, h]

theorem step_of_halted (s : State) (h : s.run = .halted) : step s = .next s := by
  simp only [step, h]

theorem executeOne_of_halted (s : State) (h : s.run = .halted) : executeOne s = none := by
  simp only [executeOne, h]

/-- A Step is never refused: halted it stays, an instruction completes, a failed fetch faults (R102). -/
theorem step_next_or_fault (s : State) : (∃ t, step s = .next t) ∨ ∃ f, step s = .fault f := by
  cases hrun : s.run with
  | halted => exact .inl ⟨s, step_of_halted s hrun⟩
  | running =>
    cases hfetch : fetchInstr s with
    | ok i => exact .inl ⟨s.after i, by rw [step_of_fetchInstr s i hrun hfetch, exec_eq_after]⟩
    | error f => exact .inr ⟨f, by simp only [step, hrun, hfetch]⟩

/-- A Step from Running that halts ran BRK, which sets B (10_state.md R36, R29). -/
theorem break_of_step_halted (s t : State) (hrun : s.run = .running) (h : step s = .next t)
    (ht : t.run = .halted) : t.flags.b = true := by
  obtain ⟨hhalt, -⟩ | ⟨-, i, -, rfl⟩ := step_next_after s t h
  · simp [hrun] at hhalt
  · have hbrk : i = .brk := by
      by_contra hne
      simp [State.after_run, hne, hrun] at ht
    rw [State.after_b, if_pos hbrk]

/-! ## The Run of Steps -/

theorem runLoop_of_step_running (s t : State) (n : Nat) (hrun : s.run = .running) (h : step s = .next t)
    (ht : t.run = .running) : runLoop (n + 1) s = runLoop n t := by
  have hone : executeOne s = some (.ok t) := by simp only [executeOne, hrun, h, ht]
  simp only [runLoop, hone]

theorem runLoop_of_step_halted (s t : State) (n : Nat) (hrun : s.run = .running) (h : step s = .next t)
    (ht : t.run = .halted) : runLoop (n + 1) s = .halted t := by
  have hone : executeOne s = some (.halted t) := by simp only [executeOne, hrun, h, ht]
  simp only [runLoop, hone]

/-- What a result of the loop says of the state it carries (R105, R106). -/
def RunResult.Sound : RunResult → Prop
  | .halted t => t.run = .halted ∧ t.flags.b = true
  | .faulted f t => t.run = .running ∧ step t = .fault f
  | .outOfBudget t => t.run = .running
  | .refused _ => False

theorem runLoop_sound (n : Nat) (s : State) (hrun : s.run = .running) : (runLoop n s).Sound := by
  induction n generalizing s with
  | zero => exact hrun
  | succ n ih =>
    obtain ⟨t, ht⟩ | ⟨f, hf⟩ := step_next_or_fault s
    · cases htrun : t.run with
      | running =>
        rw [runLoop_of_step_running s t n hrun ht htrun]
        exact ih t htrun
      | halted =>
        rw [runLoop_of_step_halted s t n hrun ht htrun]
        exact ⟨htrun, break_of_step_halted s t hrun ht htrun⟩
    · rw [runLoop_of_step_fault s f n hrun hf]
      exact ⟨hrun, hf⟩

/-- A loop that ended within its budget ends the same way with a larger one. -/
theorem runLoop_mono (n k : Nat) (s : State) (hnk : n ≤ k) (hend : ∀ t, runLoop n s ≠ .outOfBudget t) :
    runLoop k s = runLoop n s := by
  induction n generalizing k s with
  | zero => exact absurd rfl (hend s)
  | succ n ih =>
    obtain ⟨k, rfl⟩ := Nat.exists_eq_add_one_of_ne_zero (Nat.ne_of_gt (Nat.lt_of_lt_of_le n.succ_pos hnk))
    simp only [runLoop] at hend ⊢
    split at hend
    · exact ih k _ (Nat.le_of_succ_le_succ hnk) hend
    all_goals rfl

theorem hostRun_of_running (origin : Word) (n : Nat) (s : State) (hrun : s.run = .running) :
    hostRun origin n s = runLoop n (s.setPc origin) := by
  simp only [hostRun, hostSetPc, hrun]

theorem hostRun_of_halted (origin : Word) (n : Nat) (s : State) (hrun : s.run = .halted) :
    hostRun origin n s = .refused .needsReset := by
  simp only [hostRun, hostSetPc, hrun]

theorem hostRun_mono (origin : Word) (n k : Nat) (s : State) (hnk : n ≤ k)
    (hend : ∀ t, hostRun origin n s ≠ .outOfBudget t) : hostRun origin k s = hostRun origin n s := by
  cases hrun : s.run with
  | running =>
    simp only [hostRun_of_running origin _ s hrun] at hend ⊢
    exact runLoop_mono n k _ hnk hend
  | halted => simp only [hostRun_of_halted origin _ s hrun]

end Machine

end Sys2Proof

/-! ## The statements of 40_dispatch_and_addressing.md -/

namespace Sys2Proof.Proofs

open Sys2Proof.Machine Sys2Proof.Safety

/-- Settles O6, by induction on the budget (`runLoop_sound`). -/
theorem runLoopOutcomes : Obligations.RunLoopOutcomes := by
  intro n s hrun
  have hsound : ∀ r, runLoop n s = r → r.Sound := fun r hr => hr ▸ runLoop_sound n s hrun
  exact ⟨fun t => hsound (.halted t), fun f t => hsound (.faulted f t), fun t => hsound (.outOfBudget t),
    fun r => hsound (.refused r)⟩

/-- Settles O7: of two budgets, the larger gives the result of the smaller unless that one runs out. -/
theorem unboundedRunIsDetermined : Obligations.UnboundedRunIsDetermined := by
  rintro origin s r ⟨⟨n, rfl⟩, hend⟩ k
  by_cases hk : ∃ t, hostRun origin k s = .outOfBudget t
  · exact .inr hk
  · refine .inl ?_
    obtain hle | hle := le_total n k
    · exact hostRun_mono origin n k s hle hend
    · exact (hostRun_mono origin k n s hle (not_exists.mp hk)).symm

/-- Settles O20: ADC writes V by the mask formula, which says signed overflow. -/
theorem adcOverflowIsSignedOverflow : Obligations.AdcOverflowIsSignedOverflow :=
  fun m s => ⟨s.after (.adcImm m), exec_eq_after _ s, aluOverflow_iff s.a m s.flags.c⟩

/-- Settles O33: the row's base cycles, and BCC's penalty by the pages of its base and its target. -/
theorem cyclesAddedAreTheTables : Obligations.CyclesAddedAreTheTables := by
  intro i s t opcode tail e hi he h
  obtain rfl := (exec_next_iff i s t).mp h
  obtain ⟨hmem, operand, rfl⟩ := exists_make_of_encode i opcode tail e hi he
  rw [cycles_after_make s operand e hmem]
  congr 1
  cases e.make operand with
  | bccRel d => rw [extraCycles, takenPenalty_eq]; rfl
  | _ => rfl

/-- Settles O35: the row's flags written, row by row. -/
theorem flagFrame : Obligations.FlagFrame := by
  intro i s t opcode tail e hi he h
  obtain rfl := (exec_next_iff i s t).mp h
  obtain ⟨hmem, operand, rfl⟩ := exists_make_of_encode i opcode tail e hi he
  exact ⟨fun g => flagOf_after_make_frame s operand g e hmem, inert_not_mem_flagsWritten e hmem⟩

/-- Settles O40: the flags listed take values of A, the operand and C alone; the others are framed in both runs. -/
theorem onlyCarryIsRead : Obligations.OnlyCarryIsRead := by
  intro i s t f hc h
  obtain rfl := (exec_next_iff i s t).mp h
  refine ⟨(s.setFlags f).after i, exec_eq_after i _, s.after_setFlags f hc i, ?_⟩
  intro opcode tail e hi he g
  obtain ⟨hmem, operand, rfl⟩ := exists_make_of_encode i opcode tail e hi he
  exact ⟨flagOf_after_make_congr s f hc operand g e hmem, flagOf_after_make_frame (s.setFlags f) operand g e hmem⟩

/-- Settles O26: the fetch decodes the same two bytes. -/
theorem stepRunsTheDecodedInstruction : Obligations.StepRunsTheDecodedInstruction :=
  fun s i rest hrun h _ => step_of_fetchInstr s i hrun (fetchInstr_of_decode s i rest h)

/-- Settles O30, by the halted arms of `step` and `executeOne`. -/
theorem haltedStaysAsItIs : Obligations.HaltedStaysAsItIs :=
  fun s h => ⟨step_of_halted s h, executeOne_of_halted s h⟩

/-- Settles O50, one kind of Step at a time. -/
theorem runRepeatsStep : Obligations.RunRepeatsStep := by
  intro n s
  refine ⟨fun hrun => ⟨?_, rfl, ?_, ?_, ?_⟩, fun hrun origin => hostRun_of_halted origin n s hrun⟩
  · exact fun origin => hostRun_of_running origin n s hrun
  · exact fun t => runLoop_of_step_running s t n hrun
  · exact fun t => runLoop_of_step_halted s t n hrun
  · exact fun f => runLoop_of_step_fault s f n hrun

end Sys2Proof.Proofs

/-! PROOFS for the family of 41_load_store.md: the two forms of LDA, which load a byte in one way, and STA. First the
facts about a load, then the statements. -/

/-! ## Loading A -/

namespace Sys2Proof.Machine

/-- All that a load of `v` in two bytes and `n` cycles changes: either form of LDA is one (R130, R131). -/
theorem State.loadA_advance_charge (s : State) (v : Byte) (n : Nat) :
    ((s.loadA v).advance 2).charge n =
      { s with
        a := v
        flags := { s.flags with z := decide (v = 0x00#8), n := v.getLsbD 7 }
        pc := s.pc + 2#16
        cycles := s.cycles + n } := rfl

/-- The byte 0 has bit 7 clear: no result is both zero and negative (R117, R118). -/
theorem not_zeroFlag_and_negFlag (out : Byte) : ¬ (zeroFlag out = true ∧ negFlag out = true) := by
  rw [zeroFlag_iff, negFlag_iff]
  rintro ⟨rfl, hneg⟩
  exact absurd hneg (by decide)

/-- Either form of LDA leaves the byte it loads in A, and the flags derived from that byte. -/
theorem State.after_load (s : State) (i : Instr) (v : Byte)
    (h : i = .ldaImm v ∨ ∃ z, i = .ldaZp z ∧ s.readMem (zpAddr z) = v) :
    (s.after i).a = v ∧ (s.after i).flags = s.flags.setZN v := by
  obtain rfl | ⟨z, rfl, rfl⟩ := h
  · exact ⟨rfl, rfl⟩
  · exact ⟨rfl, rfl⟩

end Sys2Proof.Machine

/-! ## The statements of 41_load_store.md -/

namespace Sys2Proof.Proofs

open Sys2Proof.Machine Sys2Proof.Safety

/-- Settles O8: a load of the operand byte. -/
theorem ldaImmediateResult : Obligations.LdaImmediateResult := by
  intro m s
  rw [exec_eq_after, State.after, State.loadA_advance_charge]

/-- Settles O9: a load of the byte at the zero-page address. -/
theorem ldaZeroPageResult : Obligations.LdaZeroPageResult := by
  intro z s
  rw [exec_eq_after, State.after, State.loadA_advance_charge, zpOperand, zpAddr]

/-- Settles O10: STA's next state, and what every read sees of its one store. -/
theorem staZeroPageResult : Obligations.StaZeroPageResult := by
  intro z s
  refine ⟨s.after (.staZp z), exec_eq_after _ s, rfl, ?_, fun addr hne => ?_⟩
  · exact (s.readMem_after_staZp z (zpAddr z)).trans (if_pos rfl)
  · exact (s.readMem_after_staZp z addr).trans (if_neg hne)

/-- Settles O17: both forms load alike, and each flag says its fact of the byte loaded. -/
theorem loadFlagLaw : Obligations.LoadFlagLaw := by
  intro i v s h
  obtain ⟨ha, hf⟩ := s.after_load i v h
  refine ⟨s.after i, exec_eq_after i s, ha, ?_⟩
  rw [ha, hf]
  exact ⟨zeroFlag_iff v, negFlag_iff v, not_zeroFlag_and_negFlag v, (zeroFlag_iff v).symm⟩

end Sys2Proof.Proofs

/-! PROOFS for the family of 42_arithmetic_compare.md: ADC, its chaining through C, CMP and INC. First the flags each
writes, then one digit of a chain of additions, then the statements. -/

/-! ## The flags of a sum, a difference and an increment -/

namespace Sys2Proof.Machine

/-- The exact sum with the carry in written as the number it stands for (R140). -/
theorem aluSum_eq_ite (a b : Byte) (c : Bool) : aluSum a b c = a.toNat + b.toNat + (if c then 1 else 0) := by
  cases c <;> rfl

/-- Z and N of a number cut to 8 bits are read off the number itself (R117, R118). -/
theorem zeroFlag_ofNat (n : Nat) : zeroFlag (BitVec.ofNat 8 n) = decide (n % 256 = 0) := by
  rw [Bool.eq_iff_iff, zeroFlag_iff, decide_eq_true_iff, ← BitVec.toNat_inj, BitVec.toNat_ofNat]
  rfl

theorem negFlag_ofNat (n : Nat) : negFlag (BitVec.ofNat 8 n) = n.testBit 7 := by
  rw [negFlag, BitVec.getLsbD_ofNat]
  rfl

theorem aluOverflow_eq_decide (a b : Byte) (c : Bool) :
    aluOverflow a b c = decide (((a.toNat ^^^ aluSum a b c) &&& (b.toNat ^^^ aluSum a b c) &&& 0x80) ≠ 0) := by
  rw [Bool.eq_iff_iff, decide_eq_true_iff]
  exact bne_iff_ne

/-- Equal bytes and no others have the difference 0, so CMP's Z is equality (R141). -/
theorem zeroFlag_aluCmp (a m : Byte) : zeroFlag (aluCmp a m) = decide (a = m) := by
  rw [Bool.eq_iff_iff, zeroFlag_iff, decide_eq_true_iff, aluCmp_eq_sub]
  exact sub_eq_zero

theorem aluNoBorrow_eq_decide (a m : Byte) : aluNoBorrow a m = decide (m.toNat ≤ a.toNat) := by
  rw [Bool.eq_iff_iff, aluNoBorrow_iff, decide_eq_true_iff]

/-- The four flags ADC writes, all from the exact sum (R121, R140). -/
theorem Flags.afterAdc_eq (f : Flags) (a m : Byte) :
    f.afterAdc a m = { f with
      v := decide (((a.toNat ^^^ aluSum a m f.c) &&& (m.toNat ^^^ aluSum a m f.c) &&& 0x80) ≠ 0)
      c := decide (aluSum a m f.c > 255)
      z := decide (aluSum a m f.c % 256 = 0)
      n := (aluSum a m f.c).testBit 7 } := by
  rw [← aluOverflow_eq_decide, ← zeroFlag_ofNat, ← negFlag_ofNat]
  rfl

/-- The three flags CMP writes (R121, R141). -/
theorem Flags.afterCmp_eq (f : Flags) (a m : Byte) :
    f.afterCmp a m = { f with
      c := decide (m.toNat ≤ a.toNat)
      z := decide (a = m)
      n := (a - m).getLsbD 7 } := by
  rw [← aluNoBorrow_eq_decide, ← zeroFlag_aluCmp, ← aluCmp_eq_sub]
  rfl

/-- All that INC changes but the cell it stores to (R142). -/
theorem State.after_incZp (s : State) (z : Byte) :
    s.after (.incZp z) = { s with
      mem := (s.after (.incZp z)).mem
      flags := s.flags.setZN (s.readMem (zpAddr z) + 1#8)
      pc := s.pc + 2#16
      cycles := s.cycles + 5 } := by
  rw [← aluInc_eq]
  rfl

end Sys2Proof.Machine

/-! ## Adding digit by digit -/

namespace Sys2Proof.Safety

open Sys2Proof.Machine

/-- LDA, then ADC: the state after one digit pair of a chain (R143). -/
def afterDigit (s : State) (a m : Byte) : State := (s.after (.ldaImm a)).after (.adcImm m)

/-! A load keeps C, so the ADC after it adds the carry of the digit before. -/

@[simp] theorem afterDigit_a (s : State) (a m : Byte) : (afterDigit s a m).a = aluAdd a m s.flags.c := rfl
@[simp] theorem afterDigit_c (s : State) (a m : Byte) : (afterDigit s a m).flags.c = aluCarry a m s.flags.c := rfl

theorem adcDigits_cons (a m : Byte) (rest : List (Byte × Byte)) (s : State) :
    adcDigits ((a, m) :: rest) s =
      (adcDigits rest (afterDigit s a m)).map fun r => ((afterDigit s a m).a :: r.1, r.2) := by
  simp only [adcDigits, exec_eq_after, afterDigit]

/-- One more digit in front of a chain that adds exactly: the digit's own exact sum hands its carry to the chain. -/
theorem digit_add_chain (n out x y : Nat) (carry c : Bool) (a m : Byte)
    (hchain : out + 256 ^ n * carry.toNat = x + y + (aluCarry a m c).toNat) :
    (aluAdd a m c).toNat + 256 * out + 256 ^ (n + 1) * carry.toNat =
      (a.toNat + 256 * x) + (m.toNat + 256 * y) + c.toNat := by
  have hdigit := aluAdd_carry a m c
  calc (aluAdd a m c).toNat + 256 * out + 256 ^ (n + 1) * carry.toNat
      = (aluAdd a m c).toNat + 256 * (out + 256 ^ n * carry.toNat) := by ring
    _ = (aluAdd a m c).toNat + 256 * (x + y + (aluCarry a m c).toNat) := by rw [hchain]
    _ = (a.toNat + 256 * x) + (m.toNat + 256 * y) + c.toNat := by omega

end Sys2Proof.Safety

/-! ## The statements of 42_arithmetic_compare.md -/

namespace Sys2Proof.Proofs

open Sys2Proof.Machine Sys2Proof.Safety

/-- Settles O11: A and the four flags are those of the exact sum. -/
theorem adcImmediateResult : Obligations.AdcImmediateResult := by
  intro m s
  rw [← aluSum_eq_ite, exec_eq_after, State.after, Flags.afterAdc_eq]
  rfl

/-- Settles O12: CMP writes the flags of `Flags.afterCmp_eq`, and moves PC and the counter. -/
theorem cmpImmediateResult : Obligations.CmpImmediateResult := by
  intro m s
  rw [exec_eq_after, State.after, Flags.afterCmp_eq]
  rfl

/-- Settles O19, by induction on the digit pairs, for every carry in. -/
theorem adcChainAddsExactly : Obligations.AdcChainAddsExactly := by
  intro digits
  induction digits with
  | nil => exact fun s => ⟨[], s.flags.c, rfl, rfl, by simp [digitsValue]⟩
  | cons pair rest ih =>
    intro s
    obtain ⟨a, m⟩ := pair
    obtain ⟨out, carry, hrun, hlen, hchain⟩ := ih (afterDigit s a m)
    rw [afterDigit_c] at hchain
    refine ⟨aluAdd a m s.flags.c :: out, carry, ?_, congrArg (· + 1) hlen, ?_⟩
    · rw [adcDigits_cons, hrun, Option.map_some, afterDigit_a]
    · exact digit_add_chain rest.length _ _ _ carry s.flags.c a m hchain

/-- Settles O13: INC's next state, and what every read sees of its one store. -/
theorem incZeroPageResult : Obligations.IncZeroPageResult := by
  intro z s
  refine ⟨s.after (.incZp z), exec_eq_after _ s, s.after_incZp z, ?_, fun addr hne => ?_⟩
  · exact (s.readMem_after_incZp z (zpAddr z)).trans (if_pos rfl)
  · exact (s.readMem_after_incZp z addr).trans (if_neg hne)

/-- Settles O18: A is the sum's low byte, which masking keeps, and C its carry. -/
theorem adcCarryLaw : Obligations.AdcCarryLaw := by
  rintro a m c s rfl rfl
  refine ⟨s.after (.adcImm m), exec_eq_after _ s, ?_, aluCarry_iff s.a m s.flags.c⟩
  exact (aluAdd_toNat s.a m s.flags.c).trans (Nat.and_two_pow_sub_one_eq_mod _ 8).symm

end Sys2Proof.Proofs

/-! PROOFS for the family of 43_branch.md: BCC's two ways on, then the statements. -/

/-! ## The state after a branch -/

namespace Sys2Proof.Machine

open Safety

/-- With C set BCC goes on at the address after it (R160). -/
theorem State.after_bccRel_of_carry (s : State) (d : Byte) (hc : s.flags.c = true) :
    s.after (.bccRel d) = { s with pc := relBase s, cycles := s.cycles + 2 } := by
  simp only [State.after, hc]
  rfl

/-- With C clear BCC goes to its target and pays the penalty of a taken branch (R160, R162). -/
theorem State.after_bccRel_of_not_carry (s : State) (d : Byte) (hc : ¬ s.flags.c = true) :
    s.after (.bccRel d) =
      { s with pc := displaced (relBase s) d, cycles := s.cycles + (2 + takenPenalty d s) } := by
  simp only [State.after, hc, relTarget_eq_displaced]
  rfl

end Sys2Proof.Machine

/-! ## The statements of 43_branch.md -/

namespace Sys2Proof.Proofs

open Sys2Proof.Machine Sys2Proof.Safety

/-- Settles O14: not taken, taken, and, by the value of the penalty, taken into another page. -/
theorem bccResult : Obligations.BccResult := by
  intro d s base target
  rw [exec_eq_after]
  congr 1
  by_cases hc : s.flags.c = true
  · rw [if_pos hc, s.after_bccRel_of_carry d hc, relBase]
  · rw [if_neg hc, s.after_bccRel_of_not_carry d hc, takenPenalty_eq]
    by_cases hpage : base.toNat / 256 = target.toNat / 256
    · rw [if_pos hpage, relBase, if_pos hpage]
    · rw [if_neg hpage, relBase, if_neg hpage]

/-- Settles O32: BCC's two ways on; every other instruction moves PC past its own bytes. -/
theorem pcAfterEachInstruction : Obligations.PcAfterEachInstruction := by
  intro i s t h
  obtain rfl := (exec_next_iff i s t).mp h
  cases i with
  | bccRel d =>
    by_cases hc : s.flags.c = true
    · rw [s.after_bccRel_of_carry d hc]
      exact (if_pos hc).symm
    · rw [s.after_bccRel_of_not_carry d hc]
      exact (if_neg hc).symm
  | _ => rfl

end Sys2Proof.Proofs

/-! PROOFS for the family of 44_system.md: BRK's charge of no cycles, then the statements. -/

/-! ## The cost of BRK -/

namespace Sys2Proof.Machine

/-- BRK's charge is 0 (92_eei_decisions.md D4), so it leaves the whole state as it is. -/
theorem State.charge_brkCycles (s : State) : s.charge Config.brkCycles = s := rfl

end Sys2Proof.Machine

/-! ## The statements of 44_system.md -/

namespace Sys2Proof.Proofs

open Sys2Proof.Machine

/-- Settles O15: with no cycle charged, BRK sets B, halts and moves PC. -/
theorem brkResult : Obligations.BrkResult := by
  intro s
  rw [exec_eq_after, State.after, State.charge_brkCycles]
  rfl

/-- Settles O16: NOP moves PC and charges its cycles, and does nothing else. -/
theorem nopResult : Obligations.NopResult := by
  intro s
  rw [exec_eq_after, State.after]
  rfl

end Sys2Proof.Proofs

/-! PROOFS for the family of 60_exceptions.md: the fault of a Step, the accessors in and out of range, then the
statements. -/

/-! ## The fault of a Step -/

namespace Sys2Proof.Machine

open Safety

/-- All that a failed fetch can have met: an opcode byte without an entry (R181). -/
theorem fetchInstr_error (s : State) (f : Fault) (h : fetchInstr s = .error f) :
    s.readMem s.pc ∉ implementedOpcodes ∧ f = .unimplementedOpcode (s.readMem s.pc) := by
  rw [fetchInstr_eq] at h
  split at h
  · next hentry =>
    injection h with h
    exact ⟨(decoderEntry_eq_none_iff _).mp hentry, h.symm⟩
  · cases h

/-- All that a faulting step can have done: fail to fetch while running. No instruction faults (R183). -/
theorem step_fault (s : State) (f : Fault) (h : step s = .fault f) : s.run = .running ∧ fetchInstr s = .error f := by
  cases hrun : s.run with
  | halted =>
    rw [step_of_halted s hrun] at h
    cases h
  | running =>
    cases hfetch : fetchInstr s with
    | ok i =>
      rw [step_of_fetchInstr s i hrun hfetch, exec_eq_after] at h
      cases h
    | error g =>
      simp only [step, hrun, hfetch, Host.Outcome.fault.injEq] at h
      exact ⟨rfl, h ▸ rfl⟩

/-! ## The accessors in and out of range -/

theorem busRead_of_lt (addr : Nat) (s : State) (h : addr < Config.memorySize) :
    busRead addr s = .ok (s.readMem (BitVec.ofNat 16 addr)) :=
  if_pos h

theorem busRead_of_not_lt (addr : Nat) (s : State) (h : ¬ addr < Config.memorySize) :
    busRead addr s = .error (.outOfBounds addr) :=
  if_neg h

theorem busWrite_of_lt (addr v : Nat) (s : State) (h : addr < Config.memorySize) :
    busWrite addr v s = .ok (s.writeMem (BitVec.ofNat 16 addr) (BitVec.ofNat 8 v)) :=
  if_pos h

theorem busWrite_of_not_lt (addr v : Nat) (s : State) (h : ¬ addr < Config.memorySize) :
    busWrite addr v s = .error (.outOfBounds addr) :=
  if_neg h

/-- Numbers in range name different cells. -/
theorem ofNat_inj_of_lt (addr other : Nat) (h : addr < Config.memorySize) (h' : other < Config.memorySize) :
    BitVec.ofNat 16 other = BitVec.ofNat 16 addr ↔ other = addr := by
  rw [← BitVec.toNat_inj, BitVec.toNat_ofNat, BitVec.toNat_ofNat, Nat.mod_eq_of_lt h, Nat.mod_eq_of_lt h']

/-- What a write in range does to every later accessor read, whatever its number (R51, R52). -/
theorem busRead_writeMem (addr other : Nat) (s : State) (v : Byte) (h : addr < Config.memorySize) :
    busRead other (s.writeMem (BitVec.ofNat 16 addr) v) = if other = addr then .ok v else busRead other s := by
  by_cases h' : other < Config.memorySize
  · rw [busRead_of_lt other _ h', busRead_of_lt other s h', State.readMem_writeMem]
    simp only [ofNat_inj_of_lt addr other h h']
    split <;> rfl
  · rw [busRead_of_not_lt other _ h', busRead_of_not_lt other s h', if_neg fun heq => h' (lt_of_eq_of_lt heq h)]

end Sys2Proof.Machine

/-! ## The statements of 60_exceptions.md -/

namespace Sys2Proof.Proofs

open Sys2Proof.Machine

/-- Settles O28: an instruction has a next state, a fault comes from the fetch, and a step's outcome is one of these. -/
theorem noInstructionFaults : Obligations.NoInstructionFaults := by
  refine ⟨fun i s => ⟨s.after i, exec_eq_after i s⟩, fun s f h => ?_, fun s r h => ?_⟩
  · obtain ⟨-, hfetch⟩ := step_fault s f h
    exact (fetchInstr_error s f hfetch).2
  · obtain ⟨t, ht⟩ | ⟨f, hf⟩ := step_next_or_fault s
    · cases ht.symm.trans h
    · cases hf.symm.trans h

/-- Settles O42: in range the written state is `writeMem`'s, which `busRead_writeMem` reads at every number. -/
theorem accessorsAndTheirBounds : Obligations.AccessorsAndTheirBounds := by
  refine fun addr v s => ⟨fun hle => ?_, fun hgt => ?_⟩
  · have hlt : addr < Config.memorySize := Nat.lt_succ_of_le hle
    have hread := fun other => busRead_writeMem addr other s (BitVec.ofNat 8 v) hlt
    refine ⟨busRead_of_lt addr s hlt, _, busWrite_of_lt addr v s hlt, rfl, ?_, fun other hne => ?_⟩
    · exact (hread addr).trans (if_pos rfl)
    · exact (hread other).trans (if_neg hne)
  · have hge : ¬ addr < Config.memorySize := Nat.not_lt_of_le hgt
    exact ⟨busRead_of_not_lt addr s hge, busWrite_of_not_lt addr v s hge⟩

end Sys2Proof.Proofs

/-! PROOFS for the family of 70_reset_and_hazards.md: what Reset leaves in memory, what SetPC and Load do, and where a
Step can write. First the facts about these operations, then the statements. -/

/-! ## The host's operations, and the reach of a Step -/

namespace Sys2Proof.Machine

/-- Reset zero-fills memory (R39). -/
@[simp] theorem State.readMem_resetAt (origin addr : Word) : (State.resetAt origin).readMem addr = 0x00#8 := rfl

/-- Wherever Reset puts PC, the CORE fetches the opcode byte 0x00 (R208). -/
theorem fetchInstr_resetAt (origin : Word) : fetchInstr (State.resetAt origin) = .ok .brk := by
  apply fetchInstr_of_decode _ _ [0x00#8]
  simp only [State.readMem_resetAt]
  rfl

theorem hostSetPc_of_running (origin : Word) (s : State) (hrun : s.run = .running) :
    hostSetPc origin s = .next (s.setPc origin) := by
  simp only [hostSetPc, hrun]

theorem hostSetPc_of_halted (origin : Word) (s : State) (hrun : s.run = .halted) :
    hostSetPc origin s = .refused .needsReset := by
  simp only [hostSetPc, hrun]

/-- The writes of a Load succeed exactly when the first is in range and the others succeed after it (R203). -/
theorem loadBytes_cons_ok_iff (addr v : Nat) (rest : List Nat) (s t : State) :
    loadBytes addr (v :: rest) s = .ok t ↔
      addr < Config.memorySize ∧
        loadBytes (addr + 1) rest (s.writeMem (BitVec.ofNat 16 addr) (BitVec.ofNat 8 v)) = .ok t := by
  by_cases h : addr < Config.memorySize
  · simp only [loadBytes, busWrite_of_lt addr v s h, h, true_and]
  · simp [loadBytes, busWrite_of_not_lt addr v s h, h]

theorem exists_loadBytes_ok (addr : Nat) (bytes : List Nat) (s : State)
    (h : addr + bytes.length ≤ Config.memorySize) : ∃ t, loadBytes addr bytes s = .ok t := by
  induction bytes generalizing addr s with
  | nil => exact ⟨s, rfl⟩
  | cons v rest ih =>
    rw [List.length_cons] at h
    obtain ⟨t, ht⟩ := ih (addr + 1) (s.writeMem (BitVec.ofNat 16 addr) (BitVec.ofNat 8 v)) (by omega)
    exact ⟨t, (loadBytes_cons_ok_iff ..).mpr ⟨by omega, ht⟩⟩

/-- The writes of a Load leave every address below its first byte and above its last alone. -/
theorem readMem_loadBytes_outside (addr : Nat) (bytes : List Nat) (s t : State) (other : Word)
    (h : loadBytes addr bytes s = .ok t) (hout : other.toNat < addr ∨ addr + bytes.length ≤ other.toNat) :
    t.readMem other = s.readMem other := by
  induction bytes generalizing addr s with
  | nil =>
    cases h
    rfl
  | cons v rest ih =>
    rw [List.length_cons] at hout
    obtain ⟨hlt, hrest⟩ := (loadBytes_cons_ok_iff ..).mp h
    have hne : other ≠ BitVec.ofNat 16 addr := by
      rintro rfl
      rw [BitVec.toNat_ofNat, Nat.mod_eq_of_lt hlt] at hout
      omega
    rw [ih (addr + 1) _ hrest (by omega), State.readMem_writeMem, if_neg hne]

/-- Byte `k` of a Load is what its address reads after all the writes: the later ones lie above it. -/
theorem readMem_loadBytes_at (addr k v : Nat) (bytes : List Nat) (s t : State) (h : loadBytes addr bytes s = .ok t)
    (hk : bytes[k]? = some v) : t.readMem (BitVec.ofNat 16 (addr + k)) = BitVec.ofNat 8 v := by
  induction bytes generalizing addr k s with
  | nil => cases hk
  | cons first rest ih =>
    obtain ⟨-, hrest⟩ := (loadBytes_cons_ok_iff ..).mp h
    cases k with
    | zero =>
      obtain rfl : first = v := by simpa using hk
      have hbelow : (BitVec.ofNat 16 addr).toNat < addr + 1 :=
        Nat.lt_succ_of_le (Nat.mod_le addr _)
      rw [Nat.add_zero, readMem_loadBytes_outside _ _ _ _ _ hrest (.inl hbelow), State.readMem_writeMem, if_pos rfl]
    | succ k =>
      rw [← Nat.add_assoc, Nat.add_right_comm]
      exact ih (addr + 1) k _ hrest (by simpa using hk)

theorem loadFits_iff (origin : Word) (bytes : List Nat) :
    loadFits origin bytes = true ↔ origin.toNat + bytes.length ≤ Config.memorySize :=
  decide_eq_true_iff

/-- A Load that fits is its writes, which all succeed. -/
theorem hostLoad_of_fits (origin : Word) (bytes : List Nat) (s : State)
    (h : origin.toNat + bytes.length ≤ Config.memorySize) :
    ∃ t, loadBytes origin.toNat bytes s = .ok t ∧ hostLoad origin bytes s = .next t := by
  obtain ⟨t, ht⟩ := exists_loadBytes_ok origin.toNat bytes s h
  exact ⟨t, ht, by simp only [hostLoad, (loadFits_iff origin bytes).mpr h, ht, if_true]⟩

theorem hostLoad_of_not_fits (origin : Word) (bytes : List Nat) (s : State)
    (h : ¬ origin.toNat + bytes.length ≤ Config.memorySize) :
    hostLoad origin bytes s = .refused (.loadPastTop origin.toNat bytes.length) :=
  if_neg fun hfits => h ((loadFits_iff origin bytes).mp hfits)

theorem ne_zpAddr_of_le (addr : Word) (z : Byte) (h : 0x0100 ≤ addr.toNat) : addr ≠ zpAddr z := by
  rintro rfl
  rw [zpAddr_toNat] at h
  exact absurd z.isLt (Nat.not_lt_of_le h)

/-- STA and INC store in the zero page, and nothing else stores (R210). -/
theorem State.readMem_after_of_le (s : State) (i : Instr) (addr : Word) (h : 0x0100 ≤ addr.toNat) :
    (s.after i).readMem addr = s.readMem addr := by
  cases i with
  | staZp z => rw [State.readMem_after_staZp, if_neg (ne_zpAddr_of_le addr z h)]
  | incZp z => rw [State.readMem_after_incZp, if_neg (ne_zpAddr_of_le addr z h)]
  | _ => exact State.readMem_congr _ _ (s.after_mem_of_not_stores _ rfl) addr

end Sys2Proof.Machine

/-! ## The statements of 70_reset_and_hazards.md -/

namespace Sys2Proof.Proofs

open Sys2Proof.Machine

/-- Settles O5: the writes of a Load that fits, read inside and outside its range, or its refusal. -/
theorem loadResult : Obligations.LoadResult := by
  refine fun s origin bytes => ⟨fun hfits => ?_, fun hpast => ?_⟩
  · obtain ⟨t, hwrites, hload⟩ := hostLoad_of_fits origin bytes s hfits
    obtain ⟨hmem, -⟩ := loadBytes_ok _ _ _ _ hwrites
    refine ⟨t, hload, hmem, fun k v hk => ?_, fun addr hout => ?_⟩
    · exact readMem_loadBytes_at _ k v _ _ _ hwrites hk
    · exact readMem_loadBytes_outside _ _ _ _ addr hwrites hout
  · exact hostLoad_of_not_fits origin bytes s (Nat.not_le_of_lt hpast)

/-- Settles O38: a step leaves the state or runs one instruction, and no instruction stores above the zero page. -/
theorem stepWritesOnlyTheZeroPage : Obligations.StepWritesOnlyTheZeroPage := by
  intro s t hst addr haddr
  obtain ⟨-, rfl⟩ | ⟨-, i, -, rfl⟩ := step_next_after s t hst
  · rfl
  · exact s.readMem_after_of_le i addr haddr

/-- Settles O1: the fields of `State.resetAt`, and its reads. -/
theorem resetInvariant : Obligations.ResetInvariant :=
  ⟨fun _ origin => ⟨rfl, rfl, rfl, rfl, State.readMem_resetAt origin, rfl, rfl, rfl⟩, fun _ => rfl⟩

/-- Settles O3: the CORE is Running and fetches BRK, from whatever state Reset was given. -/
theorem firstStepAfterResetIsBrk : Obligations.FirstStepAfterResetIsBrk :=
  fun _ _ _ _ origin _ => step_of_fetchInstr _ _ rfl (fetchInstr_resetAt origin)

/-- Settles O4, one run state at a time. -/
theorem setPcResult : Obligations.SetPcResult :=
  fun s origin => ⟨hostSetPc_of_running origin s, hostSetPc_of_halted origin s⟩

end Sys2Proof.Proofs
